-- ==== Sys2Proof/Word.lean ====
section
/-! DEFINITION. The word types of the block (00_scope.md R5, R6): 64-bit limbs and 384-bit values.

A 384-bit register value is one `BitVec 384`; the number it denotes (`val` of R6) is its `toNat`, and all
values are unsigned (R10). Arithmetic on `toNat` is exact, as the pseudocode of R10 reads it; wrap-around is
written where the spec writes it. -/

namespace Sys2Proof

/-- One byte of the host data path. -/
abbrev Byte := BitVec 8

/-- One limb: `LIMB_W = 64` bits (R5). It is also the width of the host data path, of INV and of a command word. -/
abbrev Limb := BitVec 64

/-- One Limb384 value: `WORD_W = 384` bits, every pattern legal (R6). -/
abbrev Word384 := BitVec 384

/-- The index of an operand register, `IDX_W = 4` bits, `N_W = 16` values, all legal (R5; 30_encoding.md R48). -/
abbrev RegIdx := Fin 16

/-- The index of a limb in a Limb384 value, `N_LIMBS = 6` of them (R5, R6). -/
abbrev LimbIdx := Fin 6

end Sys2Proof
end

