-- ==== Sys2Proof/Config.lean ====
section
/-! DEFINITION. What an implementation of the block fixes and the spec leaves open (00_scope.md R5;
93_implementation_defined.md U3, U4, U11). The open values have no body: no proof can see what they are. -/

namespace Sys2Proof

namespace Config

/-- The size of the register window in bytes, `WINDOW` (00_scope.md R5; 20_memory.md R29). -/
def windowSize : Nat := 0x800

/-- Where the platform puts the window, counted in windows. OPEN (U4); log 6. -/
opaque baseBlock : Nat

/-- `BASE`, the byte address of the window in the host's address space: a multiple of 0x800
(00_scope.md R5; 20_memory.md R37). -/
def base : Nat := windowSize * baseBlock

/-- The offset the port sees for a host byte address; none outside the window (20_memory.md R29). -/
def windowOffset (addr : Nat) : Option Nat :=
  if base ≤ addr ∧ addr < base + windowSize then some (addr - base) else none

/-- `LAT_ADDMOD` in clock cycles. OPEN (U3); log 7. -/
opaque latAddmod : Nat

/-- `LAT_SUBMOD` in clock cycles. OPEN (U3); log 7. -/
opaque latSubmod : Nat

/-- `LAT_MULMOD` in clock cycles. OPEN (U3); log 7. -/
opaque latMulmod : Nat

/-- Free values: whether the n-th held access that a reset ends gets an error response (true) or is abandoned
(false). The spec leaves it to the platform (70_reset_and_hazards.md R95; U11 "any value of error or
abandonment"); log 3. -/
opaque heldAccessErrors : Nat → Bool

end Config

end Sys2Proof
end

