-- ==== Sys2Proof/Syntax.lean ====
section
/-! DEFINITION. The instruction set: the three commands of spec/opcode_table.json (00_scope.md R2;
30_encoding.md R47 to R50). -/

namespace Sys2Proof

/-- A decoded command. The operands stand in the source's argument order `(out, a, b, p)` (00_scope.md R13):
destination, first source, second source, modulus; each names a W register. MULMOD also reads INV. -/
inductive Instr where
  /-- ADDMOD (40_add_sub.md R59). -/
  | addmod (rd ra rb rp : RegIdx)
  /-- SUBMOD (40_add_sub.md R62). -/
  | submod (rd ra rb rp : RegIdx)
  /-- MULMOD (41_montgomery_mul.md R68). -/
  | mulmod (rd ra rb rp : RegIdx)
deriving DecidableEq, Repr

namespace Instr

/-- The destination register `rd`, the source's `out`. -/
def rd : Instr → RegIdx
  | addmod d _ _ _ => d
  | submod d _ _ _ => d
  | mulmod d _ _ _ => d

/-- The first source register `ra`. -/
def ra : Instr → RegIdx
  | addmod _ a _ _ => a
  | submod _ a _ _ => a
  | mulmod _ a _ _ => a

/-- The second source register `rb`. -/
def rb : Instr → RegIdx
  | addmod _ _ b _ => b
  | submod _ _ b _ => b
  | mulmod _ _ b _ => b

/-- The modulus register `rp`. -/
def rp : Instr → RegIdx
  | addmod _ _ _ p => p
  | submod _ _ _ p => p
  | mulmod _ _ _ p => p

/-- The operation code `opc` (30_encoding.md R50). -/
def opc : Instr → BitVec 4
  | addmod _ _ _ _ => 0x1
  | submod _ _ _ _ => 0x2
  | mulmod _ _ _ _ => 0x3

/-- The clock cycles a command takes: it depends only on its opcode (70_reset_and_hazards.md R104). Timing
only, and the longest the port holds the CMD write (R105); log 7. -/
def latency : Instr → Nat
  | addmod _ _ _ _ => Config.latAddmod
  | submod _ _ _ _ => Config.latSubmod
  | mulmod _ _ _ _ => Config.latMulmod

end Instr

end Sys2Proof
end

