-- ==== Sys2Proof/WellFormed.lean ====
section
/-! DEFINITION. What makes a command word and a host access well formed.

An `Instr` needs no check: its four fields range over exactly the 16 register indices, and all 16 are legal in
every field, in any combination (30_encoding.md R48). What can be ill formed is the 64-bit word written to CMD
(R52, R53) and the access that carries it (20_memory.md R31). -/

namespace Sys2Proof

namespace WellFormed

/-- The opcode of the word is one of the three operations (30_encoding.md R50, R52). -/
def opcodeOk (c : BitVec 64) : Bool :=
  c.extractLsb' 0 4 = 0x1 ∨ c.extractLsb' 0 4 = 0x2 ∨ c.extractLsb' 0 4 = 0x3

/-- The reserved bits 63:20 of the word are 0 (30_encoding.md R53). -/
def reservedOk (c : BitVec 64) : Bool :=
  c.extractLsb' 20 44 = 0

/-- The word lies in the legal command space (30_encoding.md R54). -/
def command (c : BitVec 64) : Bool :=
  opcodeOk c && reservedOk c

/-- The access is exactly 8 bytes (20_memory.md R31). -/
def sizeOk (size : Nat) : Bool := size = 8

/-- The offset is a multiple of 8 (20_memory.md R31). -/
def alignedOk (off : Nat) : Bool := off % 8 = 0

/-- The offset lies in the window (20_memory.md R31). -/
def inWindowOk (off : Nat) : Bool := off < Config.windowSize

/-- All eight byte lanes of a write are enabled (20_memory.md R31). -/
def lanesOk (lanes : BitVec 8) : Bool := lanes = 0xFF

/-- A read that the port performs (20_memory.md R33). -/
def read (off size : Nat) : Bool :=
  sizeOk size && alignedOk off && inWindowOk off

/-- A write that the port performs (20_memory.md R34). -/
def write (off size : Nat) (lanes : BitVec 8) : Bool :=
  sizeOk size && lanesOk lanes && alignedOk off && inWindowOk off

end WellFormed

end Sys2Proof
end

