-- ==== Sys2Proof/Decode.lean ====
section
/-! DEFINITION. The decoder of command words and the encoder (30_encoding.md R46 to R54). Decoding is total:
every 64-bit word is a command or is rejected by the name of its command error. -/

namespace Sys2Proof

/-- Why a word is no command: the two causes of a command error (60_exceptions.md R78). -/
inductive DecodeError where
  /-- `ILLEGAL_OPCODE`: the opcode is 0x0 or 0x4 to 0xF (30_encoding.md R52). -/
  | illegalOpcode
  /-- `RESERVED_BITS`: a legal opcode with a bit of 63:20 set (30_encoding.md R53). -/
  | reservedBits
deriving DecidableEq, Repr

/-- The code that STATUS.CAUSE records for a command error (60_exceptions.md R78). -/
def DecodeError.code : DecodeError → BitVec 4
  | .illegalOpcode => 1
  | .reservedBits => 2

/-- The 4-bit register field of a word whose least significant bit is `lo` (30_encoding.md R47, R48). -/
def regField (c : BitVec 64) (lo : Nat) : RegIdx := (c.extractLsb' lo 4).toFin

/-- The decoding part of `IssueCommand` (30_encoding.md R51): the opcode is checked before the reserved bits
(60_exceptions.md R85). -/
def decode (c : BitVec 64) : Except DecodeError Instr :=
  if WellFormed.opcodeOk c = false then .error .illegalOpcode
  else if WellFormed.reservedOk c = false then .error .reservedBits
  else if c.extractLsb' 0 4 = 0x1 then
    .ok (.addmod (regField c 4) (regField c 8) (regField c 12) (regField c 16))
  else if c.extractLsb' 0 4 = 0x2 then
    .ok (.submod (regField c 4) (regField c 8) (regField c 12) (regField c 16))
  else
    .ok (.mulmod (regField c 4) (regField c 8) (regField c 12) (regField c 16))

/-- The format R4 (30_encoding.md R47) from its five fields; the reserved bits are 0. -/
def encodeR4 (opc : BitVec 4) (rd ra rb rp : RegIdx) : BitVec 64 :=
  opc.setWidth 64
    ||| (BitVec.ofNat 64 rd.val <<< 4)
    ||| (BitVec.ofNat 64 ra.val <<< 8)
    ||| (BitVec.ofNat 64 rb.val <<< 12)
    ||| (BitVec.ofNat 64 rp.val <<< 16)

/-- The command word of an instruction: `c = opc | rd<<4 | ra<<8 | rb<<12 | rp<<16` (30_encoding.md R56). -/
def encode : Instr → BitVec 64
  | .addmod rd ra rb rp => encodeR4 0x1 rd ra rb rp
  | .submod rd ra rb rp => encodeR4 0x2 rd ra rb rp
  | .mulmod rd ra rb rp => encodeR4 0x3 rd ra rb rp

/-- The `nbits` low bits of `w`, as the 64-bit word the port carries: every bit above them is 0. -/
def tableWord (nbits w : Nat) : BitVec 64 := BitVec.ofNat 64 (w % 2 ^ nbits)

/-- What the decoder reads from an instruction whose bits, numbered as spec/opcode_table.json numbers them,
are `w`. Every command is 64 bits (30_encoding.md R46), so a longer row is none of the block's. -/
def decodeTableWord (nbits w : Nat) : Option Instr :=
  if nbits ≤ 64 then (decode (tableWord nbits w)).toOption else none

end Sys2Proof
end

