-- ==== Sys2Proof/Machine/State.lean ====
section
/-! DEFINITION. The state of the block (10_state.md R14 to R27) and the events of its port
(20_memory.md R28; 70_reset_and_hazards.md R93).

The spec's whole architectural state is `w`, `inv`, `err`, `cause` (R26). The other three fields are the
model's: what still comes in at the port, what the port has answered, and how many free values were drawn.
There is no stored memory: every byte of the register window has its home in one of the registers
(20_memory.md R28, R29). -/

namespace Sys2Proof

namespace Machine

/-- What stops an access. -/
inductive Fault where
  /-- `raise BusError` (60_exceptions.md R84): raised by `memRead` and `memWrite` for an access that breaks
  20_memory.md R31 and by nothing else. The step answers it on the port and the block goes on (exact, R84);
  only `Safety.strictStep`, the view of a host that faults (93_implementation_defined.md U10), stops with it
  (safe). Log 5. -/
  | busError
deriving DecidableEq, Repr

/-- Why a step has no meaning. -/
inductive Refusal where
  /-- An instruction that has no meaning yet (safe). No arm of `exec` is refused in this model. -/
  | notModelled (mnemonic : String)
deriving DecidableEq, Repr

/-- One transaction of the host port: the byte offset into the window, the size in bytes and, for a write, the
byte lanes enabled and the 64 bits of data (20_memory.md R28, R31). -/
inductive Access where
  /-- A host read, `MemRead(off, size)` (20_memory.md R33). -/
  | read (off size : Nat)
  /-- A host write, `MemWrite(off, size, data)` (20_memory.md R34). -/
  | write (off size : Nat) (lanes : BitVec 8) (data : Limb)
deriving DecidableEq, Repr

/-- What can come in at the block's inputs (20_memory.md R28). -/
inductive PortEvent where
  /-- A host access, accepted in its turn (20_memory.md R39). -/
  | access (a : Access)
  /-- Reset is asserted and released (70_reset_and_hazards.md R93). `held` are the accesses it catches: the one
  being performed (a CMD write whose command is abandoned among them), those queued behind it and those
  presented while reset is asserted; none of them is performed (R93, R95). Log 9. -/
  | reset (held : List Access)
deriving DecidableEq, Repr

/-- What the port answers to a transaction (20_memory.md R28). -/
inductive Response where
  /-- A read completed with 64 bits of data. -/
  | data (v : Limb)
  /-- A write completed. -/
  | done
  /-- The error response of a bus error; a read returns no data (60_exceptions.md R84). -/
  | busError
  /-- The transaction was abandoned by a reset (70_reset_and_hazards.md R95). -/
  | abandoned
deriving DecidableEq, Repr

/-- The state of the block. -/
structure State where
  /-- The operand registers W0 .. W15 (10_state.md R14). -/
  w : Vector Word384 16
  /-- The INV register (R16). -/
  inv : BitVec 64
  /-- STATUS.ERR, STATUS[0] (R17, R21). -/
  err : Bool
  /-- STATUS.CAUSE, STATUS[7:4] (R17; 60_exceptions.md R78). -/
  cause : BitVec 4
  /-- The model's own: what comes in at the port, oldest first, in the merged order of all masters
  (20_memory.md R39, R41). Log 1. -/
  inputs : List PortEvent
  /-- The model's own: what the port has answered, oldest first (20_memory.md R28). Log 2. -/
  responses : List Response
  /-- The model's own: how many free values `Config.heldAccessErrors` were drawn. Log 3. -/
  draws : Nat
deriving DecidableEq, Repr

/-- The block right after reset (10_state.md R24; 70_reset_and_hazards.md R93, R94): every piece of
architectural state is 0, and the block is idle. -/
def State.reset : State :=
  { w := Vector.replicate 16 0
    inv := 0
    err := false
    cause := 0
    inputs := []
    responses := []
    draws := 0 }

/-- What an aligned offset of the window names (20_memory.md R29). -/
inductive Target where
  /-- CMD, 0x000. -/
  | cmd
  /-- STATUS, 0x008. -/
  | status
  /-- INV, 0x010. -/
  | inv
  /-- `W[k].limb[i]`, 0x400 + 0x40*k + 8*i. -/
  | limb (k : RegIdx) (i : LimbIdx)
  /-- A reserved offset or slot padding: RAZ/WI (R32). -/
  | reserved
deriving DecidableEq, Repr

/-- The values every command latches before it computes (10_state.md R23; 40_add_sub.md R57): `A_l`, `B_l`,
`P_l`. MULMOD latches INV as well, on its own. They live inside one step only; log 4. -/
structure Latches where
  /-- `W[ra]` before the command. -/
  a : Word384
  /-- `W[rb]` before the command. -/
  b : Word384
  /-- `W[rp]` before the command. -/
  p : Word384
deriving DecidableEq, Repr

end Machine

end Sys2Proof
end

