-- ==== Sys2Proof/Machine/Operands.lean ====
section
/-! DEFINITION. Limbs of a 384-bit value, and the operands of a command: the latch and write-back phases that
every command shares (00_scope.md R6; 10_state.md R15; 40_add_sub.md R57). -/

namespace Sys2Proof

namespace Machine

/-- Limb `i` of a value: `x[64*i+63 : 64*i]` (00_scope.md R6; 10_state.md R15). -/
def limb (x : Word384) (i : Nat) : Limb := x.extractLsb' (64 * i) 64

/-- Ones in the bits of limb 0. -/
def limbMask : Word384 := (BitVec.allOnes 64).setWidth 384

/-- The value with limb `i` replaced and the other limbs unchanged (10_state.md R15). -/
def setLimb (x : Word384) (i : Nat) (v : Limb) : Word384 :=
  (x &&& ~~~(limbMask <<< (64 * i))) ||| (v.setWidth 384 <<< (64 * i))

/-- The six limbs of a value, limb 0 first (00_scope.md R6). -/
def limbs (x : Word384) : List Limb :=
  [limb x 0, limb x 1, limb x 2, limb x 3, limb x 4, limb x 5]

/-- The number a list of limbs denotes, limb 0 first: `sum limb[i] * 2^(64*i)` (00_scope.md R6). -/
def limbsVal : List Limb → Nat
  | [] => 0
  | l :: rest => l.toNat + 2 ^ 64 * limbsVal rest

/-- The 384-bit value whose limbs are given, limb 0 first. -/
def ofLimbs (ls : List Limb) : Word384 := BitVec.ofNat 384 (limbsVal ls)

/-- A read of operand register `k` (00_scope.md R11). -/
def State.readW (s : State) (k : RegIdx) : Word384 := s.w[k.val]

/-- A write of all 384 bits of operand register `k` (00_scope.md R11). No register is hardwired
(10_state.md R14). -/
def State.writeW (s : State) (k : RegIdx) (v : Word384) : State :=
  { s with w := s.w.set k.val v }

/-- A host write of one limb: the other five limbs of the register are unchanged (10_state.md R15). -/
def State.writeLimb (s : State) (k : RegIdx) (i : LimbIdx) (v : Limb) : State :=
  s.writeW k (setLimb (s.readW k) i.val v)

/-- Phase 1 of every command: the full source values are read before anything is written
(40_add_sub.md R57). -/
def State.latch (s : State) (ra rb rp : RegIdx) : Latches :=
  { a := s.readW ra, b := s.readW rb, p := s.readW rp }

/-- Phase 3 of every command: `W[rd] <- result`, the one thing a command writes (40_add_sub.md R57;
10_state.md R25). -/
def State.writeBack (s : State) (rd : RegIdx) (result : Word384) : State :=
  s.writeW rd result

end Machine

end Sys2Proof
end

