-- ==== Sys2Proof/Machine/Flags.lean ====
section
/-! DEFINITION. The carries and borrows inside a command, and the STATUS word.

No carry or borrow is architectural state: they exist only inside one command (10_state.md R20). The block's
only flag is STATUS.ERR (R21). -/

namespace Sys2Proof

namespace Machine

/-- One limb addition with carry in: the sum limb and the carry out (40_add_sub.md R60). -/
def addCarry (a b : Limb) (c : Bool) : Limb × Bool :=
  (BitVec.ofNat 64 (a.toNat + b.toNat + c.toNat), decide (2 ^ 64 ≤ a.toNat + b.toNat + c.toNat))

/-- One limb subtraction with borrow in: the difference limb mod 2^64 and the borrow out, unsigned
(40_add_sub.md R60, R63). -/
def subBorrow (a b : Limb) (br : Bool) : Limb × Bool :=
  (BitVec.ofNat 64 (2 ^ 64 + a.toNat - (b.toNat + br.toNat)), decide (a.toNat < b.toNat + br.toNat))

/-- The carry chain over limbs, limb 0 first: the sum limbs and the carry out of the last one
(40_add_sub.md R60). -/
def addChain : List Limb → List Limb → Bool → List Limb × Bool
  | a :: as, b :: bs, c =>
    let here := addCarry a b c
    let above := addChain as bs here.2
    (here.1 :: above.1, above.2)
  | _, _, c => ([], c)

/-- The borrow chain over limbs, limb 0 first: the difference limbs and the borrow out of the last one
(40_add_sub.md R60, R63). -/
def subChain : List Limb → List Limb → Bool → List Limb × Bool
  | a :: as, b :: bs, br =>
    let here := subBorrow a b br
    let above := subChain as bs here.2
    (here.1 :: above.1, above.2)
  | _, _, br => ([], br)

/-- STATUS as a host reads it: `zext_64({CAUSE, 0b000, ERR})` (10_state.md R17; 20_memory.md R33). -/
def statusWord (err : Bool) (cause : BitVec 4) : Limb :=
  (cause ++ 0#3 ++ BitVec.ofBool err).setWidth 64

/-- The invariant of STATUS that holds between host accesses: ERR is 0 exactly when CAUSE is 0, and CAUSE is
0, 1 or 2 (10_state.md R27). -/
abbrev State.StatusInv (s : State) : Prop :=
  (s.err = false ↔ s.cause = 0) ∧ (s.cause = 0 ∨ s.cause = 1 ∨ s.cause = 2)

end Machine

end Sys2Proof
end

