-- ==== Sys2Proof/Machine/Ops.lean ====
section
/-! DEFINITION. The named operations on the registers behind the host port: the address map, the command
error, the write to STATUS, the host read, and the reset (20_memory.md R29 to R33; 60_exceptions.md R81, R82;
70_reset_and_hazards.md R93, R95). -/

namespace Sys2Proof

namespace Machine

/-- The bytes of a register's slot: the pitch from one W register to the next (20_memory.md R29). -/
def slotPitch : Nat := 0x40

/-- The offset of the slot of `W[k]`, where its limb 0 lies (20_memory.md R29). -/
def slotOffset (k : RegIdx) : Nat := 0x400 + slotPitch * k.val

/-- The offset of `W[k].limb[i]` (20_memory.md R29). -/
def limbOffset (k : RegIdx) (i : LimbIdx) : Nat := slotOffset k + 8 * i.val

/-- What an offset of the window names (20_memory.md R29). A register's limbs are found as the pseudocode of
R33 finds them: `k = (off - 0x400) >> 6`, `j = ((off - 0x400) mod 0x40) >> 3`. -/
def targetOf (off : Nat) : Target :=
  if off = 0x000 then .cmd
  else if off = 0x008 then .status
  else if off = 0x010 then .inv
  else if off < 0x400 then .reserved
  else
    let k := (off - 0x400) / slotPitch
    let j := ((off - 0x400) % slotPitch) / 8
    if h : k < 16 ∧ j < 6 then .limb ⟨k, h.1⟩ ⟨j, h.2⟩ else .reserved

/-- The 64 bits a target reads as; CMD and the reserved offsets read as 0 (20_memory.md R32, R33). -/
def State.readTarget (s : State) : Target → Limb
  | .cmd => 0
  | .status => statusWord s.err s.cause
  | .inv => s.inv
  | .limb k i => limb (s.readW k) i.val
  | .reserved => 0

/-- `MemRead(off, n)` (20_memory.md R33): the value, or `raise BusError`. It changes no state. -/
def State.memRead (s : State) (off n : Nat) : Except Fault Limb :=
  if WellFormed.read off n = false then .error .busError
  else .ok (s.readTarget (targetOf off))

/-- One byte of the window, as the aligned word around it shows it: byte `j` of a word holds its bits
`[8*j+7 : 8*j]` (20_memory.md R30). The block has no narrow access; this is the model's read of one byte, used
to say what a command leaves unchanged. -/
def State.windowByte (s : State) (n : Nat) : Byte :=
  (s.readTarget (targetOf (n - n % 8))).extractLsb' (8 * (n % 8)) 8

/-- `raise CommandError(cause)` (60_exceptions.md R81): the first error since the last clear is kept; no W
register and no INV is written. This is the block's whole error entry: it saves nothing else, changes no mode
and vectors nowhere (R87), and there is no return from it (R88). -/
def State.commandError (s : State) (e : DecodeError) : State :=
  if s.err = false then { s with err := true, cause := e.code } else s

/-- A host write to STATUS: bit 0 = 1 clears ERR and CAUSE; bits 63:1 are ignored (60_exceptions.md R82). -/
def State.writeStatus (s : State) (v : Limb) : State :=
  if v.extractLsb' 0 1 = 1 then { s with err := false, cause := 0 } else s

/-- A host write to INV, every bit writable (10_state.md R16). -/
def State.writeInv (s : State) (v : Limb) : State := { s with inv := v }

/-- The port answers the access it has just served. -/
def State.respond (s : State) (r : Response) : State :=
  { s with responses := s.responses ++ [r] }

/-- How the `n`-th held access that a reset ends is answered: an error response or an abandoned transaction,
a free value of the platform (70_reset_and_hazards.md R95; U11); log 3. -/
def heldResponse (n : Nat) : Response :=
  if Config.heldAccessErrors n then .busError else .abandoned

/-- The answers to held accesses, each from a free value of its own; `n` were drawn before. -/
def heldResponses : List Access → Nat → List Response
  | [], _ => []
  | _ :: rest, n => heldResponse n :: heldResponses rest (n + 1)

/-- Reset is asserted and released with the accesses `held` at the port (70_reset_and_hazards.md R93, R95):
every register takes its reset value, and no held access has an effect. What comes in after the reset, and
what the port answered before it, are the host's and stay. -/
def State.takeReset (s : State) (held : List Access) : State :=
  { State.reset with
    inputs := s.inputs
    responses := s.responses ++ heldResponses held s.draws
    draws := s.draws + held.length }

end Machine

end Sys2Proof
end

