-- ==== Sys2Proof/Machine/AddSub.lean ====
section
/-! DEFINITION. The commands ADDMOD and SUBMOD (40_add_sub.md R57 to R66). -/

namespace Sys2Proof

namespace Machine

/-- The value ADDMOD writes, for every `a`, `b`, `p` (40_add_sub.md R59): the sum is exact (385 bits), the
comparison includes bit 384, and the one subtraction is exact before the truncation to 384 bits. Outside the
precondition the same value is written (R66); log 8. -/
def addModValue (a b p : Word384) : Word384 :=
  let t := a.toNat + b.toNat
  let u := if p.toNat ≤ t then t - p.toNat else t
  BitVec.ofNat 384 u

/-- The value SUBMOD writes, for every `a`, `b`, `p` (40_add_sub.md R62): the difference modulo 2^384, with
`p` added back modulo 2^384 when the unsigned subtraction borrows. Outside the precondition the same value is
written (R66); log 8. -/
def subModValue (a b p : Word384) : Word384 :=
  let borrow := decide (a.toNat < b.toNat)
  let t := a - b
  if borrow then t + p else t

/-- ADDMOD (40_add_sub.md R59): INV is not read, no flag is written, no register contents raise anything. -/
def execAddmod (rd ra rb rp : RegIdx) (s : State) : Host.Outcome State Fault Refusal :=
  let l := s.latch ra rb rp
  .next (s.writeBack rd (addModValue l.a l.b l.p))

/-- SUBMOD (40_add_sub.md R62): INV is not read, no flag is written, no register contents raise anything. -/
def execSubmod (rd ra rb rp : RegIdx) (s : State) : Host.Outcome State Fault Refusal :=
  let l := s.latch ra rb rp
  .next (s.writeBack rd (subModValue l.a l.b l.p))

end Machine

end Sys2Proof
end

