-- ==== Sys2Proof/Machine/Montgomery.lean ====
section
/-! DEFINITION. The command MULMOD (41_montgomery_mul.md R67 to R76), in the exact integers of its
architectural definition. -/

namespace Sys2Proof

namespace Machine

/-- The multiplier of elimination `i`: `m_i = (((acc >> 64*i) mod 2^64) * inv) mod 2^64`
(41_montgomery_mul.md R68). -/
def montMultiplier (inv acc i : Nat) : Nat := (((acc >>> (64 * i)) % 2 ^ 64) * inv) % 2 ^ 64

/-- Elimination `i`: `acc <- acc + m_i * p * 2^(64*i)` (41_montgomery_mul.md R68). -/
def montEliminate (p inv acc i : Nat) : Nat := acc + montMultiplier inv acc i * p * 2 ^ (64 * i)

/-- The accumulator after the first `n` eliminations of the full product (41_montgomery_mul.md R68). -/
def montAcc (a b p inv : Nat) : Nat → Nat
  | 0 => a * b
  | n + 1 => montEliminate p inv (montAcc a b p inv n) n

/-- The accumulator with its six low limbs shifted out: the 385-bit `u` before the final subtraction
(41_montgomery_mul.md R68, R69). -/
def montShifted (a b p inv : Nat) : Nat := montAcc a b p inv 6 >>> 384

/-- The value MULMOD writes, for every `a`, `b`, `p` and INV (41_montgomery_mul.md R68): exactly one
conditional subtraction (R72), then the truncation to 384 bits. Outside the precondition the same value is
written (R75); log 8. -/
def mulModValue (a b p : Word384) (inv : Limb) : Word384 :=
  let u := montShifted a.toNat b.toNat p.toNat inv.toNat
  BitVec.ofNat 384 (if p.toNat ≤ u then u - p.toNat else u)

/-- MULMOD (41_montgomery_mul.md R68): INV is latched with the sources (R76), no flag is written, no register
contents raise anything. -/
def execMulmod (rd ra rb rp : RegIdx) (s : State) : Host.Outcome State Fault Refusal :=
  let l := s.latch ra rb rp
  let inv := s.inv
  .next (s.writeBack rd (mulModValue l.a l.b l.p inv))

end Machine

end Sys2Proof
end

