-- ==== Sys2Proof/Machine/Dispatch.lean ====
section
/-! DEFINITION. From a decoded command to its meaning: the last lines of `IssueCommand` (30_encoding.md R51). -/

namespace Sys2Proof

namespace Machine

def exec (i : Instr) (s : State) : Host.Outcome State Fault Refusal :=
  match i with
  | .addmod rd ra rb rp => Sys2Proof.Machine.execAddmod rd ra rb rp s
  | .submod rd ra rb rp => Sys2Proof.Machine.execSubmod rd ra rb rp s
  | .mulmod rd ra rb rp => Sys2Proof.Machine.execMulmod rd ra rb rp s

end Machine

end Sys2Proof
end

