-- ==== Sys2Proof/Machine/Port.lean ====
section
/-! DEFINITION. The host port: issuing a command, the host write, and serving one port event
(30_encoding.md R51; 20_memory.md R33, R34, R39, R40; 60_exceptions.md R84). -/

namespace Sys2Proof

namespace Machine

/-- `IssueCommand(c)`, atomic (30_encoding.md R51; 20_memory.md R40): a word that is no command records its
command error; ERR blocks nothing (60_exceptions.md R83). -/
def issueCommand (c : BitVec 64) (s : State) : Host.Outcome State Fault Refusal :=
  match decode c with
  | .error e => .next (s.commandError e)
  | .ok i => exec i s

/-- A write of 64 bits to a target (20_memory.md R34); reserved offsets ignore it (R32). -/
def writeTarget (tgt : Target) (v : Limb) (s : State) : Host.Outcome State Fault Refusal :=
  match tgt with
  | .cmd => issueCommand v s
  | .status => .next (s.writeStatus v)
  | .inv => .next (s.writeInv v)
  | .limb k i => .next (s.writeLimb k i v)
  | .reserved => .next s

/-- `MemWrite(off, n, v)` with the byte lanes of the transaction (20_memory.md R34). A malformed access is
never decoded (60_exceptions.md R85). -/
def memWrite (off n : Nat) (lanes : BitVec 8) (v : Limb) (s : State) : Host.Outcome State Fault Refusal :=
  if WellFormed.write off n lanes = false then .fault .busError
  else writeTarget (targetOf off) v s

/-- What a performed access does and answers; a bus error is the fault it raises (60_exceptions.md R84). -/
def performAccess (a : Access) (s : State) : Host.Outcome (State × Response) Fault Refusal :=
  match a with
  | .read off n =>
    match s.memRead off n with
    | .ok v => .next (s, .data v)
    | .error f => .fault f
  | .write off n lanes v =>
    match memWrite off n lanes v s with
    | .next t => .next (t, .done)
    | .fault f => .fault f
    | .refused r => .refused r

/-- The port serves one access: it is performed whole and answered, or it is not performed, changes no state,
and gets the error response (20_memory.md R39; 60_exceptions.md R84; log 5). -/
def serveAccess (a : Access) (s : State) : Host.Outcome State Fault Refusal :=
  match performAccess a s with
  | .next (t, r) => .next (t.respond r)
  | .fault .busError => .next (s.respond .busError)
  | .refused r => .refused r

/-- The port serves the event at its head; the events behind it wait (20_memory.md R39). -/
def serveEvent (e : PortEvent) (s : State) : Host.Outcome State Fault Refusal :=
  match e with
  | .access a => serveAccess a s
  | .reset held => .next (s.takeReset held)

/-- One step of the block: the oldest port event is taken and served; between host accesses the block is idle
and holds its state (60_exceptions.md R92). Log 1. -/
def stepPort (s : State) : Host.Outcome State Fault Refusal :=
  match s.inputs with
  | [] => .next s
  | e :: rest => serveEvent e { s with inputs := rest }

/-- The host write that issues a command word: all 8 bytes to CMD (30_encoding.md R46, R56). -/
def commandWrite (c : BitVec 64) : Access := .write 0x000 8 0xFF c

/-- The state with a command word written to CMD as the port's next event, before those already waiting. -/
def State.withCommand (s : State) (c : BitVec 64) : State :=
  { s with inputs := .access (commandWrite c) :: s.inputs }

end Machine

end Sys2Proof
end

