-- ==== Sys2Proof/Machine/Step.lean ====
section
/-! DEFINITION. The step of the block, and how a program comes to it. -/

namespace Sys2Proof

namespace Machine

/-- One step: one port event is served whole (20_memory.md R39, R40). -/
def step (s : State) : Host.Outcome State Fault Refusal := stepPort s

/-- The block fetches nothing (20_memory.md R44): an instruction runs when the host writes its word to CMD.
So the word that the next step runs is the data of a CMD write at the head of the port's inputs; log 11. -/
def State.withFetchWord (s : State) (nbits w : Nat) : State := s.withCommand (tableWord nbits w)

end Machine

end Sys2Proof
end

