-- ==== Sys2Proof/Machine/Assembler.lean ====
section
/-! DEFINITION. The text syntax of commands and of the host programs that drive the block (30_encoding.md R56):
a line of text, what it stands for, and the host accesses it expands to. What R56 leaves open of the text
(white space, the ';' comment of 95_test_vectors.md) is log 10. -/

namespace Sys2Proof

namespace Machine

/-- A line of a host program (30_encoding.md R56). -/
inductive AsmLine where
  /-- `addmod`, `submod` or `mulmod rd, ra, rb, rp`. -/
  | command (i : Instr)
  /-- `.cmd <imm64>`: an arbitrary word to CMD. -/
  | rawCmd (c : BitVec 64)
  /-- `st <off>, <imm64>`. -/
  | st (off : Nat) (v : Limb)
  /-- `ld <off>`. -/
  | ld (off : Nat)
  /-- `setw wk, X`. -/
  | setw (k : RegIdx) (x : Word384)
  /-- `getw wk`. -/
  | getw (k : RegIdx)
  /-- `setinv X`. -/
  | setinv (x : Limb)
  /-- `getstatus`. -/
  | getstatus
  /-- `clrerr`. -/
  | clrerr
deriving DecidableEq, Repr

/-- `st off, v`: `MemWrite(off, 8, v)`, all lanes enabled. -/
def hostStore (off : Nat) (v : Limb) : Access := .write off 8 0xFF v

/-- `ld off`: `MemRead(off, 8)`. -/
def hostLoad (off : Nat) : Access := .read off 8

/-- The six limb indices in the order `setw` and `getw` use, limb 0 first. -/
def limbOrder : List LimbIdx := [0, 1, 2, 3, 4, 5]

/-- The host accesses a line stands for, in order (30_encoding.md R56). -/
def AsmLine.expand : AsmLine → List Access
  | .command i => [commandWrite (encode i)]
  | .rawCmd c => [commandWrite c]
  | .st off v => [hostStore off v]
  | .ld off => [hostLoad off]
  | .setw k x => limbOrder.map fun i => hostStore (limbOffset k i) (limb x i.val)
  | .getw k => limbOrder.map fun i => hostLoad (limbOffset k i)
  | .setinv x => [hostStore 0x010 x]
  | .getstatus => [hostLoad 0x008]
  | .clrerr => [hostStore 0x008 1]

/-- The result of `getw` from the data of its six reads: `sum ld_i * 2^(64*i)` (30_encoding.md R56). -/
def getwResult (reads : List Limb) : Nat := limbsVal reads

/-- The state with the accesses waiting at the port, before those already waiting. -/
def State.withAccesses (s : State) (as : List Access) : State :=
  { s with inputs := as.map PortEvent.access ++ s.inputs }

/-- White space between the words of a line; log 10. -/
def isBlank (c : Char) : Bool := c = ' ' ∨ c = '\t'

/-- The text without the white space at its ends. -/
def trimText (cs : List Char) : List Char :=
  ((cs.dropWhile isBlank).reverse.dropWhile isBlank).reverse

/-- The operands of a line: the text between commas. -/
def splitCommas : List Char → List (List Char)
  | [] => [[]]
  | c :: cs =>
    if c = ',' then [] :: splitCommas cs
    else match splitCommas cs with
      | [] => [[c]]
      | f :: fs => (c :: f) :: fs

/-- The value of a digit in lower case, for bases up to 16. -/
def digitValue (c : Char) : Option Nat :=
  if 48 ≤ c.toNat ∧ c.toNat ≤ 57 then some (c.toNat - 48)
  else if 97 ≤ c.toNat ∧ c.toNat ≤ 102 then some (c.toNat - 87)
  else none

/-- The digits of a number, most significant first, after a part already read. -/
def readDigits (radix : Nat) : List Char → Nat → Option Nat
  | [], n => some n
  | c :: cs, n =>
    match digitValue c with
    | some d => if d < radix then readDigits radix cs (n * radix + d) else none
    | none => none

/-- A number: C-style hexadecimal or decimal (30_encoding.md R56). -/
def readNumber (cs : List Char) : Option Nat :=
  match cs with
  | [] => none
  | ['0', 'x'] => none
  | '0' :: 'x' :: ds => readDigits 16 ds 0
  | _ => readDigits 10 cs 0

/-- A number that fits in `n` bits. -/
def readBits (n : Nat) (cs : List Char) : Option (BitVec n) :=
  match readNumber cs with
  | some v => if v < 2 ^ n then some (BitVec.ofNat n v) else none
  | none => none

/-- The index of a register whose number is written in decimal, without a leading 0. -/
def readRegIdx (cs : List Char) : Option RegIdx :=
  match cs with
  | '0' :: _ :: _ => none
  | [] => none
  | _ =>
    match readDigits 10 cs 0 with
    | some k => if h : k < 16 then some ⟨k, h⟩ else none
    | none => none

/-- A register name, `w0` to `w15` (30_encoding.md R56). -/
def readReg (cs : List Char) : Option RegIdx :=
  match cs with
  | 'w' :: ds => readRegIdx ds
  | _ => none

/-- The four register operands of a command, in the order `rd, ra, rb, rp`. -/
def readRegs4 (mk : RegIdx → RegIdx → RegIdx → RegIdx → Instr) (ops : List (List Char)) : Option AsmLine :=
  match ops with
  | [d, a, b, p] => do
    let rd ← readReg d
    let ra ← readReg a
    let rb ← readReg b
    let rp ← readReg p
    return .command (mk rd ra rb rp)
  | _ => none

/-- The line of a mnemonic and its operands, both in lower case (30_encoding.md R56). -/
def readLine (mnemonic : List Char) (ops : List (List Char)) : Option AsmLine :=
  if mnemonic = ['a', 'd', 'd', 'm', 'o', 'd'] then readRegs4 .addmod ops
  else if mnemonic = ['s', 'u', 'b', 'm', 'o', 'd'] then readRegs4 .submod ops
  else if mnemonic = ['m', 'u', 'l', 'm', 'o', 'd'] then readRegs4 .mulmod ops
  else if mnemonic = ['.', 'c', 'm', 'd'] then
    match ops with
    | [c] => (readBits 64 c).map .rawCmd
    | _ => none
  else if mnemonic = ['s', 't'] then
    match ops with
    | [o, v] => do return .st (← readNumber o) (← readBits 64 v)
    | _ => none
  else if mnemonic = ['l', 'd'] then
    match ops with
    | [o] => (readNumber o).map .ld
    | _ => none
  else if mnemonic = ['s', 'e', 't', 'w'] then
    match ops with
    | [k, x] => do return .setw (← readReg k) (← readBits 384 x)
    | _ => none
  else if mnemonic = ['g', 'e', 't', 'w'] then
    match ops with
    | [k] => (readReg k).map .getw
    | _ => none
  else if mnemonic = ['s', 'e', 't', 'i', 'n', 'v'] then
    match ops with
    | [x] => (readBits 64 x).map .setinv
    | _ => none
  else if mnemonic = ['g', 'e', 't', 's', 't', 'a', 't', 'u', 's'] then
    if ops = [] then some .getstatus else none
  else if mnemonic = ['c', 'l', 'r', 'e', 'r', 'r'] then
    if ops = [] then some .clrerr else none
  else none

/-- A line of text, read without regard to case, less what follows a ';' (30_encoding.md R56; log 10); none
where the text is no line of the syntax. -/
def assemble (text : List Char) : Option AsmLine :=
  let line := trimText ((text.takeWhile (· ≠ ';')).map Char.toLower)
  let mnemonic := line.takeWhile (fun c => !isBlank c)
  let rest := trimText (line.dropWhile (fun c => !isBlank c))
  readLine mnemonic (if rest = [] then [] else (splitCommas rest).map trimText)

/-- The decimal digits of a register's number. -/
def regDigits (k : RegIdx) : List Char :=
  if k.val < 10 then [Char.ofNat (48 + k.val)] else ['1', Char.ofNat (38 + k.val)]

/-- The text of a register name, `w0` to `w15`. -/
def regText (k : RegIdx) : List Char := 'w' :: regDigits k

/-- The mnemonic of a command in text. -/
def mnemonicText : Instr → List Char
  | .addmod _ _ _ _ => ['a', 'd', 'd', 'm', 'o', 'd']
  | .submod _ _ _ _ => ['s', 'u', 'b', 'm', 'o', 'd']
  | .mulmod _ _ _ _ => ['m', 'u', 'l', 'm', 'o', 'd']

/-- A command as text: `addmod rd, ra, rb, rp` and the like (30_encoding.md R56). -/
def commandText (i : Instr) : List Char :=
  mnemonicText i ++ [' '] ++ regText i.rd ++ [',', ' '] ++ regText i.ra ++ [',', ' ']
    ++ regText i.rb ++ [',', ' '] ++ regText i.rp

end Machine

end Sys2Proof
end

