-- ==== Sys2Proof/Machine/Datapath.lean ====
section
/-! DEFINITION. The limb-level datapaths of the three function units, as the spec writes them out
(40_add_sub.md R60, R63; 41_montgomery_mul.md R71). The architectural result of a command is the integer
definition of its rule (00_scope.md R12); these are the schedules that the spec says give the same result for
every input. -/

namespace Sys2Proof

namespace Machine

/-- The working values of the adder (40_add_sub.md R60). -/
structure AddWork where
  /-- The sum limbs `s_0 .. s_5`. -/
  sum : List Limb
  /-- `c6`, bit 384 of the sum. -/
  carry : Bool
  /-- The difference limbs `d_0 .. d_5` of `s - p`. -/
  diff : List Limb
  /-- The borrow out of `s - p`. -/
  borrow : Bool
deriving DecidableEq, Repr

/-- The carry chain, then the borrow chain of `s - p` (40_add_sub.md R60). -/
def addWork (a b p : Word384) : AddWork :=
  let s := addChain (limbs a) (limbs b) false
  let d := subChain s.1 (limbs p) false
  { sum := s.1, carry := s.2, diff := d.1, borrow := d.2 }

/-- `sel <- c6 OR (NOT br)` (40_add_sub.md R60). -/
def AddWork.sel (x : AddWork) : Bool := x.carry || !x.borrow

/-- The adder's result: the branchless select between `s` and `s - p` (40_add_sub.md R60). -/
def addDatapath (a b p : Word384) : Word384 :=
  let x := addWork a b p
  ofLimbs (if x.sel then x.diff else x.sum)

/-- The mask limb of the subtractor: all ones on a borrow (40_add_sub.md R63). -/
def borrowMask (br : Bool) : Limb := if br then BitVec.allOnes 64 else 0

/-- The subtractor's result: the borrow chain of `a - b`, then a masked add of `p` whose final carry is
discarded (40_add_sub.md R63). -/
def subDatapath (a b p : Word384) : Word384 :=
  let d := subChain (limbs a) (limbs b) false
  let e := addChain d.1 ((limbs p).map (· &&& borrowMask d.2)) false
  ofLimbs e.1

/-- One row of limb products with carry: `x <- T[j] + m * b[j] + C; T[j] <- x mod 2^64; C <- x >> 64` over
the limbs, limb 0 first (41_montgomery_mul.md R71). -/
def macRow (m : Limb) : List Limb → List Limb → Limb → List Limb × Limb
  | t :: ts, b :: bs, c =>
    let x := t.toNat + m.toNat * b.toNat + c.toNat
    let above := macRow m ts bs (BitVec.ofNat 64 (x >>> 64))
    (BitVec.ofNat 64 x :: above.1, above.2)
  | _, _, c => ([], c)

/-- The working register `T[0..7]` of the interleaved schedule (41_montgomery_mul.md R71). -/
structure CiosReg where
  /-- `T[0..5]`. -/
  lo : List Limb
  /-- `T[6]`. -/
  t6 : Limb
  /-- `T[7]`. -/
  t7 : Limb
deriving DecidableEq, Repr

/-- The number the working register holds. -/
def CiosReg.val (t : CiosReg) : Nat := limbsVal (t.lo ++ [t.t6, t.t7])

/-- `T[0..7] <- 0`. -/
def CiosReg.zero : CiosReg := { lo := [0, 0, 0, 0, 0, 0], t6 := 0, t7 := 0 }

/-- The first half of an outer step: `T += a.limb[i] * b` (41_montgomery_mul.md R71). -/
def ciosMultiply (b : Word384) (t : CiosReg) (ai : Limb) : CiosReg :=
  let row := macRow ai t.lo (limbs b) 0
  let x := t.t6.toNat + row.2.toNat
  { lo := row.1, t6 := BitVec.ofNat 64 x, t7 := BitVec.ofNat 64 (x >>> 64) }

/-- The second half of an outer step: `T = (T + m*p) >> 64` with `m = T[0] * inv mod 2^64`
(41_montgomery_mul.md R71). -/
def ciosReduce (p : Word384) (inv : Limb) (t : CiosReg) : CiosReg :=
  let m := t.lo.headD 0 * inv
  let row := macRow m t.lo (limbs p) 0
  let x := t.t6.toNat + row.2.toNat
  { lo := row.1.tail ++ [BitVec.ofNat 64 x]
    t6 := t.t7 + BitVec.ofNat 64 (x >>> 64)
    t7 := 0 }

/-- One outer step (41_montgomery_mul.md R71). -/
def ciosStep (b p : Word384) (inv : Limb) (t : CiosReg) (ai : Limb) : CiosReg :=
  ciosReduce p inv (ciosMultiply b t ai)

/-- The working register after the outer steps for the first `n` limbs of `a` (41_montgomery_mul.md R71). -/
def ciosRun (a b p : Word384) (inv : Limb) (n : Nat) : CiosReg :=
  ((limbs a).take n).foldl (ciosStep b p inv) CiosReg.zero

/-- `u <- {T[6][0], T[5], .., T[0]}`, 385 bits (41_montgomery_mul.md R71). -/
def CiosReg.result (t : CiosReg) : Nat := limbsVal t.lo + 2 ^ 384 * (t.t6.toNat % 2)

/-- The multiplier's result: the interleaved schedule and one conditional subtraction
(41_montgomery_mul.md R71, R72). -/
def mulDatapath (a b p : Word384) (inv : Limb) : Word384 :=
  let u := (ciosRun a b p inv 6).result
  BitVec.ofNat 384 (if p.toNat ≤ u then u - p.toNat else u)

end Machine

end Sys2Proof
end

