-- ==== Sys2Proof/Safety.lean ====
section
/-! DEFINITION. The terms claims use: what the spec asks of the software that issues a command, and what counts
as a safe run. The hardware checks no precondition (60_exceptions.md R80). -/

namespace Sys2Proof

namespace Safety

open Machine

/-- A modulus: `0 < p < 2^384` (00_scope.md R7). -/
abbrev Modulus (p : Word384) : Prop := 0 < p.toNat

/-- A reduced operand, `x < p` (00_scope.md, glossary). -/
abbrev Reduced (x p : Word384) : Prop := x.toNat < p.toNat

/-- The precondition of ADDMOD and SUBMOD (40_add_sub.md R58). -/
abbrev AddSubPre (a b p : Word384) : Prop := Modulus p ∧ Reduced a p ∧ Reduced b p

/-- The Montgomery inverse of a modulus: `(inv * p.limb[0]) mod 2^64 = 2^64 - 1` (00_scope.md R8). -/
abbrev InverseOk (inv : Limb) (p : Word384) : Prop := (inv.toNat * (limb p 0).toNat) % 2 ^ 64 = 2 ^ 64 - 1

/-- The precondition of MULMOD (41_montgomery_mul.md R67). -/
abbrev MulPre (a b p : Word384) (inv : Limb) : Prop :=
  Modulus p ∧ p.toNat % 2 = 1 ∧ Reduced a p ∧ Reduced b p ∧ InverseOk inv p

/-- The Montgomery radix `R = 2^384` (00_scope.md R9). -/
def radix : Nat := 2 ^ 384

/-- Nothing of the registers changes but `W[rd]`, and nothing of the port (10_state.md R25). -/
def OnlyWChanges (rd : RegIdx) (s t : State) : Prop :=
  (∀ k, k ≠ rd → t.readW k = s.readW k) ∧ t.inv = s.inv ∧ t.err = s.err ∧ t.cause = s.cause
    ∧ t.inputs = s.inputs ∧ t.responses = s.responses ∧ t.draws = s.draws

/-- No register changes: no W register, not INV, not STATUS. -/
def SameRegisters (s t : State) : Prop :=
  (∀ k, t.readW k = s.readW k) ∧ t.inv = s.inv ∧ t.err = s.err ∧ t.cause = s.cause

/-- The port has taken its oldest event, leaving `rest`, and has answered it with `r`; no free value was drawn. -/
def Answered (s t : State) (rest : List PortEvent) (r : Response) : Prop :=
  t.inputs = rest ∧ t.responses = s.responses ++ [r] ∧ t.draws = s.draws

/-- How many answers the port owes for an event: one for an access, one for each access a reset catches. -/
def answersOwed : PortEvent → Nat
  | .access _ => 1
  | .reset held => held.length

/-- An access that keeps to 20_memory.md R31. -/
def accessOk : Access → Bool
  | .read off n => WellFormed.read off n
  | .write off n lanes _ => WellFormed.write off n lanes

/-- The step as a host sees it that faults on an error response (93_implementation_defined.md U10): it stops
with the bus error where `step` answers it on the port and goes on. A run that `strictStep` never stops is one
in which every access keeps to 20_memory.md R31. -/
def strictStep (s : State) : Host.Outcome State Fault Refusal :=
  match s.inputs with
  | .access a :: _ => if accessOk a = false then .fault .busError else step s
  | _ => step s

end Safety

end Sys2Proof
end

