-- ==== Sys2Proof/Certificates/Slice0/Obligations.lean ====
section
/-! DEFINITION. The statements for the provers, from the numbered rules of spec/. In the docstrings, "R<n>" is a
rule of spec/ and "log n" is notes/assumptions/<n>.md. -/

open Sys2Proof Sys2Proof.Machine Sys2Proof.Safety

/-! ## Encoding -/

/-- Decode and encode agree (30_encoding.md, Length and format, Operand assembly, Opcode map): the word of every
instruction decodes to it, and every word that decodes is the word of what it decodes to. -/
def Obligations.DecodeAndEncodeAreInverse : Prop :=
  (∀ i : Instr, decode (encode i) = .ok i) ∧
  (∀ (c : BitVec 64) (i : Instr), decode c = .ok i → encode i = c)

/-- The word of an instruction is `opc | rd<<4 | ra<<8 | rb<<12 | rp<<16`, a sum since the fields do not
overlap (30_encoding.md, Length and format, Assembler syntax). -/
def Obligations.CommandWordIsTheSumOfItsFields : Prop :=
  ∀ i : Instr, (encode i).toNat =
    i.opc.toNat + 16 * i.rd.val + 256 * i.ra.val + 4096 * i.rb.val + 65536 * i.rp.val

/-- R54: three opcodes with all 2^16 combinations of register fields are the whole legal command space, and
every other word raises a command error: there is no hint, no no-op and no custom word. -/
def Obligations.LegalCommandSpace : Prop :=
  (∀ c : BitVec 64, (∃ i, decode c = .ok i) ↔
    (c.toNat % 16 = 1 ∨ c.toNat % 16 = 2 ∨ c.toNat % 16 = 3) ∧ c.toNat < 2 ^ 20) ∧
  Nat.card { c : BitVec 64 // ∃ i, decode c = .ok i } = 3 * 2 ^ 16 ∧
  (∀ (c : BitVec 64) (s : State), (∀ i, decode c ≠ .ok i) →
    ∃ e, decode c = .error e ∧ issueCommand c s = .next (s.commandError e))

/-- Words written out in 95_test_vectors.md section 2.5 decode as the table there says. -/
def Obligations.WordsOfTheSpecDecode : Prop :=
  decode 0x0000000000013241 = .ok (.addmod 4 2 3 1) ∧
  decode 0x0000000000032102 = .ok (.submod 0 1 2 3) ∧
  decode 0x00000000000cdef3 = .ok (.mulmod 15 14 13 12) ∧
  decode 0x0000000000000000 = .error .illegalOpcode ∧
  decode 0x00000000000fffff = .error .illegalOpcode ∧
  decode 0x0000000000100001 = .error .reservedBits ∧
  decode 0x8000000000000003 = .error .reservedBits ∧
  decode 0x8000000000000000 = .error .illegalOpcode

/-- The text of a command is read back as that command (30_encoding.md, Assembler syntax; the reader of text
is the model's, log 10). -/
def Obligations.CommandTextIsReadBack : Prop :=
  ∀ i : Instr, assemble (commandText i) = some (.command i)

/-! ## The three commands -/

/-- ADDMOD completes in every state, for every choice of registers: it writes the value of its pseudocode and
nothing else (40_add_sub.md, ADDMOD). -/
def Obligations.AddmodCompletesWithItsValue : Prop :=
  ∀ (rd ra rb rp : RegIdx) (s : State), ∃ t, exec (.addmod rd ra rb rp) s = .next t ∧
    t.readW rd = addModValue (s.readW ra) (s.readW rb) (s.readW rp) ∧
    (t.readW rd).toNat =
      (let sum := (s.readW ra).toNat + (s.readW rb).toNat
       if (s.readW rp).toNat ≤ sum then sum - (s.readW rp).toNat else sum) % 2 ^ 384 ∧
    OnlyWChanges rd s t

/-- SUBMOD completes in every state, for every choice of registers: it writes the value of its pseudocode and
nothing else (40_add_sub.md, SUBMOD). -/
def Obligations.SubmodCompletesWithItsValue : Prop :=
  ∀ (rd ra rb rp : RegIdx) (s : State), ∃ t, exec (.submod rd ra rb rp) s = .next t ∧
    t.readW rd = subModValue (s.readW ra) (s.readW rb) (s.readW rp) ∧
    ((t.readW rd).toNat : Int) =
      (let diff : Int := (((s.readW ra).toNat : Int) - (s.readW rb).toNat) % 2 ^ 384
       if (s.readW ra).toNat < (s.readW rb).toNat then (diff + (s.readW rp).toNat) % 2 ^ 384 else diff) ∧
    OnlyWChanges rd s t

/-- MULMOD completes in every state, for every choice of registers: it writes the value of its pseudocode, with
INV as it is in that state, and nothing else (41_montgomery_mul.md, MULMOD). -/
def Obligations.MulmodCompletesWithItsValue : Prop :=
  ∀ (rd ra rb rp : RegIdx) (s : State), ∃ t, exec (.mulmod rd ra rb rp) s = .next t ∧
    t.readW rd = mulModValue (s.readW ra) (s.readW rb) (s.readW rp) s.inv ∧
    (t.readW rd).toNat =
      (let acc := (List.range 6).foldl
         (fun acc i =>
           acc + (((acc / 2 ^ (64 * i)) % 2 ^ 64) * s.inv.toNat) % 2 ^ 64 * (s.readW rp).toNat * 2 ^ (64 * i))
         ((s.readW ra).toNat * (s.readW rb).toNat)
       let u := acc / 2 ^ 384
       if (s.readW rp).toNat ≤ u then u - (s.readW rp).toNat else u) % 2 ^ 384 ∧
    OnlyWChanges rd s t

/-- R79: no register contents make a command raise an error, stall, or fail to write `W[rd]`; in particular a
violated precondition is not detected and nothing signals it. At the port: the CMD write that carries the command
completes, STATUS is what it was, and `W[rd]` holds the command's value. -/
def Obligations.NoRegisterContentsStopACommand : Prop :=
  ∀ (i : Instr) (s : State) (rest : List PortEvent),
    s.inputs = .access (commandWrite (encode i)) :: rest →
    ∃ t, step s = .next t ∧ Answered s t rest .done ∧ t.err = s.err ∧ t.cause = s.cause ∧
      t.readW i.rd = match i with
        | .addmod _ ra rb rp => addModValue (s.readW ra) (s.readW rb) (s.readW rp)
        | .submod _ ra rb rp => subModValue (s.readW ra) (s.readW rb) (s.readW rp)
        | .mulmod _ ra rb rp => mulModValue (s.readW ra) (s.readW rb) (s.readW rp) s.inv

/-- R58: under the precondition the results of ADDMOD and SUBMOD are the exact residues; when it does not hold
the value of the pseudocode is written all the same, and nothing is detected or signalled. -/
def Obligations.AddmodAndSubmodGiveTheExactResidue : Prop :=
  ∀ (rd ra rb rp : RegIdx) (s : State), ∃ t t',
    exec (.addmod rd ra rb rp) s = .next t ∧ exec (.submod rd ra rb rp) s = .next t' ∧
    (AddSubPre (s.readW ra) (s.readW rb) (s.readW rp) →
      (t.readW rd).toNat = ((s.readW ra).toNat + (s.readW rb).toNat) % (s.readW rp).toNat ∧
      ((t'.readW rd).toNat : Int) = (((s.readW ra).toNat : Int) - (s.readW rb).toNat) % ((s.readW rp).toNat : Int)) ∧
    (¬ AddSubPre (s.readW ra) (s.readW rb) (s.readW rp) →
      t.readW rd = addModValue (s.readW ra) (s.readW rb) (s.readW rp) ∧
      t'.readW rd = subModValue (s.readW ra) (s.readW rb) (s.readW rp)) ∧
    OnlyWChanges rd s t ∧ OnlyWChanges rd s t'

/-- R64: the laws of addition and subtraction under the precondition. -/
def Obligations.AddSubLaws : Prop :=
  ∀ a b p : Word384, AddSubPre a b p →
    (addModValue a b p).toNat < p.toNat ∧ (subModValue a b p).toNat < p.toNat ∧
    subModValue (addModValue a b p) b p = a ∧
    addModValue a b p = addModValue b a p ∧
    addModValue a 0 p = a ∧ subModValue a 0 p = a ∧ subModValue a a p = 0 ∧
    addModValue (p - 1) 1 p = 0 ∧ subModValue 0 0 p = 0

/-- R66: outside the precondition ADDMOD and SUBMOD write exactly what their pseudocode gives, and change
nothing but `W[rd]`; the rule's examples. -/
def Obligations.AddSubOutsideThePrecondition : Prop :=
  (∀ (rd ra rb rp : RegIdx) (s : State), ∃ t t',
    exec (.addmod rd ra rb rp) s = .next t ∧ exec (.submod rd ra rb rp) s = .next t' ∧
    t.readW rd = addModValue (s.readW ra) (s.readW rb) (s.readW rp) ∧
    t'.readW rd = subModValue (s.readW ra) (s.readW rb) (s.readW rp) ∧
    OnlyWChanges rd s t ∧ OnlyWChanges rd s t') ∧
  (let blsP : Word384 := 0x1a0111ea397fe69a4b1ba7b6434bacd764774b84f38512bf6730d2a0f6b0f6241eabfffeb153ffffb9feffffffffaaab
   (addModValue (BitVec.allOnes 384) 1 blsP).toNat = 2 ^ 384 - blsP.toNat ∧
   subModValue 0 (BitVec.allOnes 384) blsP = blsP + 1 ∧
   blsP.toNat ≤ (subModValue 0 (BitVec.allOnes 384) blsP).toNat) ∧
  (∀ a b : Word384, (addModValue a b 0).toNat = (a.toNat + b.toNat) % 2 ^ 384)

/-- R61: ADDMOD and SUBMOD are the same function of the values before the command whatever registers the fields
name, so a result written over an input is the result written to a fresh register; and `addmod wx, wx, wy, wp`
repeated `n` times leaves `(x0 + n*y) mod p` in `W[x]`. -/
def Obligations.InPlaceAdditionAccumulates : Prop :=
  (∀ (rd ra rb rp : RegIdx) (s : State), ∃ t t',
    exec (.addmod rd ra rb rp) s = .next t ∧ exec (.submod rd ra rb rp) s = .next t' ∧
    t.readW rd = addModValue (s.readW ra) (s.readW rb) (s.readW rp) ∧
    t'.readW rd = subModValue (s.readW ra) (s.readW rb) (s.readW rp)) ∧
  (∀ (n : Nat) (x y p : RegIdx) (s : State), x ≠ y → x ≠ p →
    AddSubPre (s.readW x) (s.readW y) (s.readW p) →
    ∃ t, Host.Core.run Sys2Proof.core n
        { s with inputs := List.replicate n (.access (commandWrite (encode (.addmod x x y p)))) } = .next t ∧
      (t.readW x).toNat = ((s.readW x).toNat + n * (s.readW y).toNat) % (s.readW p).toNat)

/-- R70: under the precondition of MULMOD each elimination makes its limb zero and leaves the ones below zero,
the accumulator is `a*b + M*p` with `M < R`, `u*R` is `a*b` modulo `p`, `u` is below `2p`, and the one
subtraction leaves the Montgomery product in `[0, p)`, so that `u` is that value or that value plus `p`. -/
def Obligations.MulmodIsTheMontgomeryProduct : Prop :=
  ∀ (rd ra rb rp : RegIdx) (s : State),
    MulPre (s.readW ra) (s.readW rb) (s.readW rp) s.inv →
    ∃ t, exec (.mulmod rd ra rb rp) s = .next t ∧
      let a := (s.readW ra).toNat
      let b := (s.readW rb).toNat
      let p := (s.readW rp).toNat
      let acc := montAcc a b p s.inv.toNat
      let u := acc 6 / radix
      let m := ∑ i ∈ Finset.range 6, montMultiplier s.inv.toNat (acc i) i * 2 ^ (64 * i)
      (∀ n, n ≤ 6 → acc n % 2 ^ (64 * n) = 0) ∧
      acc 6 = a * b + m * p ∧ m < radix ∧
      u * radix % p = a * b % p ∧ u < 2 * p ∧
      (t.readW rd).toNat < p ∧ (t.readW rd).toNat * radix % p = a * b % p ∧
      (u = (t.readW rd).toNat ∨ u = (t.readW rd).toNat + p)

/-- R69: for every `a`, `b`, `p` and INV the product and the added multiples are each below 2^768, the
accumulator stays below 2^769 and `u` below 2^385; and those widths are needed. -/
def Obligations.MontgomeryAccumulatorBounds : Prop :=
  (∀ (a b p : Word384) (inv : Limb),
    let acc := montAcc a.toNat b.toNat p.toNat inv.toNat
    a.toNat * b.toNat ≤ (2 ^ 384 - 1) ^ 2 ∧ (2 ^ 384 - 1) ^ 2 < 2 ^ 768 ∧
    ∑ i ∈ Finset.range 6, montMultiplier inv.toNat (acc i) i * p.toNat * 2 ^ (64 * i)
      ≤ (2 ^ 64 - 1) * p.toNat * ∑ i ∈ Finset.range 6, 2 ^ (64 * i) ∧
    (2 ^ 64 - 1) * p.toNat * ∑ i ∈ Finset.range 6, 2 ^ (64 * i) = p.toNat * (2 ^ 384 - 1) ∧
    p.toNat * (2 ^ 384 - 1) < 2 ^ 768 ∧
    (∀ n, n ≤ 6 → acc n < 2 ^ 769) ∧ acc 6 / 2 ^ 384 < 2 ^ 385) ∧
  (∃ (a b p : Word384) (inv : Limb),
    2 ^ 768 ≤ montAcc a.toNat b.toNat p.toNat inv.toNat 6 ∧
    2 ^ 384 ≤ montShifted a.toNat b.toNat p.toNat inv.toNat)

/-- R74: the use of MULMOD in the Montgomery domain, `mont(x) = x*R mod p`: products, conversion in and out, and
the plain product through all three. -/
def Obligations.MontgomeryDomainRoundTrip : Prop :=
  ∀ (p : Word384) (inv : Limb), Modulus p → p.toNat % 2 = 1 → InverseOk inv p →
    let mont := fun x : Nat => BitVec.ofNat 384 (x * radix % p.toNat)
    let r2 : Word384 := BitVec.ofNat 384 (radix ^ 2 % p.toNat)
    ∀ x y : Word384, Reduced x p → Reduced y p →
      mulModValue (mont x.toNat) (mont y.toNat) p inv = mont (x.toNat * y.toNat % p.toNat) ∧
      mulModValue x r2 p inv = mont x.toNat ∧
      mulModValue (mont x.toNat) 1 p inv = x ∧
      (mulModValue (mulModValue (mulModValue x r2 p inv) (mulModValue y r2 p inv) p inv) 1 p inv).toNat
        = x.toNat * y.toNat % p.toNat

/-- Corner cases of MULMOD and its values outside the precondition (41_montgomery_mul.md, MULMOD): a zero operand
gives 0 whatever `p` and INV are; `p = 0` gives the high half of the product; the accumulator's low limbs are
dropped by the shift and the final subtraction is taken once, for every input; the Montgomery form of 1 is neutral;
one is squared to the inverse of `R`; and a result outside the precondition can be unreduced. -/
def Obligations.MulmodCornerValues : Prop :=
  (∀ (x p : Word384) (inv : Limb), mulModValue 0 x p inv = 0 ∧ mulModValue x 0 p inv = 0) ∧
  (∀ (a b : Word384) (inv : Limb), (mulModValue a b 0 inv).toNat = a.toNat * b.toNat / 2 ^ 384) ∧
  (∀ (a b p : Word384) (inv : Limb),
    let u := montShifted a.toNat b.toNat p.toNat inv.toNat
    (u = p.toNat → mulModValue a b p inv = 0) ∧
    (mulModValue a b p inv).toNat = (if p.toNat ≤ u then u - p.toNat else u)) ∧
  (∀ (b p : Word384) (inv : Limb), MulPre 0 b p inv →
    mulModValue (BitVec.ofNat 384 (radix % p.toNat)) b p inv = b) ∧
  (∀ (p : Word384) (inv : Limb), MulPre 1 1 p inv →
    (mulModValue 1 1 p inv).toNat * radix % p.toNat = 1 ∧
    mulModValue (p - 1) (p - 1) p inv = mulModValue 1 1 p inv) ∧
  (∃ (a b p : Word384) (inv : Limb), Modulus p ∧ InverseOk inv p ∧ p.toNat ≤ (mulModValue a b p inv).toNat)

/-- Re-issuing a command (70_reset_and_hazards.md, Software-visible hazards): the port serves a command, a host write
of one limb, and the same command again. The first result stays in `W[rd]` over the host write, unless that write is
to `W[rd]` itself; the second command computes from the registers as the host write left them, a new modulus among
them, and MULMOD then still uses the INV that nobody rewrote. -/
def Obligations.ReissuedCommandReadsTheNewSources : Prop :=
  ∀ (i : Instr) (s : State) (k : RegIdx) (j : LimbIdx) (v : Limb) (rest : List PortEvent),
    s.inputs = .access (commandWrite (encode i)) :: .access (.write (limbOffset k j) 8 0xFF v)
      :: .access (commandWrite (encode i)) :: rest →
    let value (x : State) : Word384 := match i with
      | .addmod _ ra rb rp => addModValue (x.readW ra) (x.readW rb) (x.readW rp)
      | .submod _ ra rb rp => subModValue (x.readW ra) (x.readW rb) (x.readW rp)
      | .mulmod _ ra rb rp => mulModValue (x.readW ra) (x.readW rb) (x.readW rp) s.inv
    ∃ t u r, step s = .next t ∧ step t = .next u ∧ step u = .next r ∧
      (∀ k', t.readW k' = if k' = i.rd then value s else s.readW k') ∧
      (k ≠ i.rd → u.readW i.rd = value s) ∧
      (∀ (k' : RegIdx) (j' : LimbIdx), limb (u.readW k') j'.val =
        if k' = k ∧ j' = j then v else limb (t.readW k') j'.val) ∧
      (∀ k', r.readW k' = if k' = i.rd then value u else u.readW k') ∧
      r.inv = s.inv ∧ r.err = s.err ∧ r.cause = s.cause ∧
      r.inputs = rest ∧ r.responses = s.responses ++ [.done, .done, .done] ∧ r.draws = s.draws

/-! ## The datapaths -/

/-- R60: the adder's datapath gives ADDMOD's value for every input, because the sum is `c6*2^384 + s`, the
difference is `d - br*2^384`, and the select is 1 exactly when `t >= p`. -/
def Obligations.AdderDatapathIsExact : Prop :=
  ∀ a b p : Word384,
    let x := addWork a b p
    addDatapath a b p = addModValue a b p ∧
    a.toNat + b.toNat = x.carry.toNat * 2 ^ 384 + limbsVal x.sum ∧
    (limbsVal x.sum : Int) - p.toNat = limbsVal x.diff - x.borrow.toNat * 2 ^ 384 ∧
    (x.sel = true ↔ p.toNat ≤ a.toNat + b.toNat)

/-- R63: the subtractor's datapath gives SUBMOD's value for every input, and its borrow is 1 exactly when
`a < b`. -/
def Obligations.SubtractorDatapathIsExact : Prop :=
  ∀ a b p : Word384, subDatapath a b p = subModValue a b p ∧
    ((subChain (limbs a) (limbs b) false).2 = true ↔ a.toNat < b.toNat)

/-- R71: the interleaved schedule gives MULMOD's value for every input, with the multipliers `m_i` of R68; the
working register is at most 2^385 - 1 at the end of each outer step, its limb 6 is then 0 or 1 and its limb 7
is 0, it needs at most 449 bits during the step, and each limb product with its additions fits in 128 bits. After
`n` outer steps the working register is the accumulator of R68 shifted right by `n` limbs, less the products of the
limbs of `a` still to come: the floor taken step by step is the floor taken once. -/
def Obligations.InterleavedScheduleIsExact : Prop :=
  (∀ (a b p : Word384) (inv : Limb),
    mulDatapath a b p inv = mulModValue a b p inv ∧
    (∀ n, n ≤ 6 →
      let t := ciosRun a b p inv n
      t.val ≤ 2 ^ 385 - 1 ∧ (t.t6 = 0 ∨ t.t6 = 1) ∧ t.t7 = 0 ∧
      montAcc a.toNat b.toNat p.toNat inv.toNat n / 2 ^ (64 * n) = t.val + a.toNat / 2 ^ (64 * n) * b.toNat) ∧
    (∀ n, n < 6 →
      let mid := ciosMultiply b (ciosRun a b p inv n) (limb a n)
      let m := mid.lo.headD 0 * inv
      ciosRun a b p inv (n + 1) = ciosReduce p inv mid ∧
      m.toNat = montMultiplier inv.toNat (montAcc a.toNat b.toNat p.toNat inv.toNat n) n ∧
      mid.val < 2 ^ 449 ∧ mid.val + m.toNat * p.toNat < 2 ^ 449)) ∧
  (∀ t m b c : Limb, t.toNat + m.toNat * b.toNat + c.toNat < 2 ^ 128)

/-! ## Frames and what changes a register -/

/-- R25: a command that decodes writes exactly `W[rd]`, all 384 bits of it, and leaves the other W registers,
INV and STATUS; a command that raises a command error writes no W register and no INV. -/
def Obligations.CommandWriteSet : Prop :=
  ∀ (c : BitVec 64) (s : State),
    (∀ i, decode c = .ok i → ∃ v, issueCommand c s = .next (s.writeW i.rd v) ∧
      OnlyWChanges i.rd s (s.writeW i.rd v) ∧ (s.writeW i.rd v).readW i.rd = v) ∧
    (∀ e, decode c = .error e → ∃ t, issueCommand c s = .next t ∧
      (∀ k, t.readW k = s.readW k) ∧ t.inv = s.inv ∧
      t.inputs = s.inputs ∧ t.responses = s.responses ∧ t.draws = s.draws)

/-- The frame of ADDMOD, SUBMOD and MULMOD in bytes of the window (20_memory.md, Address space and map): every
byte outside the 48 bytes of `W[rd]`'s slot reads as before, the slot being where the destination lies. -/
def Obligations.CommandLeavesTheOtherWindowBytes : Prop :=
  ∀ (i : Instr) (s t : State), exec i s = .next t →
    ∀ n, n < slotOffset i.rd ∨ slotOffset i.rd + 48 ≤ n → t.windowByte n = s.windowByte n

/-- INV changes only by a host write to its offset, which stores every bit, and by reset; ADDMOD and SUBMOD do not
read it (10_state.md, Control and status registers). -/
def Obligations.OnlyHostWritesAndResetChangeInv : Prop :=
  (∀ s t : State, step s = .next t → t.inv ≠ s.inv →
    (∃ v rest, s.inputs = .access (.write 0x010 8 0xFF v) :: rest ∧ t.inv = v) ∨
    (∃ held rest, s.inputs = .reset held :: rest ∧ t.inv = 0)) ∧
  (∀ (rd ra rb rp : RegIdx) (s : State) (x : Limb) (t : State),
    (exec (.addmod rd ra rb rp) s = .next t →
      exec (.addmod rd ra rb rp) { s with inv := x } = .next { t with inv := x }) ∧
    (exec (.submod rd ra rb rp) s = .next t →
      exec (.submod rd ra rb rp) { s with inv := x } = .next { t with inv := x }))

/-- A W register keeps its value until a command that names it as destination, a host write to one of its limbs,
or a reset (70_reset_and_hazards.md, Software-visible hazards). -/
def Obligations.OnlyItsWritersChangeAWRegister : Prop :=
  ∀ (s t : State) (k : RegIdx), step s = .next t → t.readW k ≠ s.readW k →
    (∃ c i rest, s.inputs = .access (commandWrite c) :: rest ∧ decode c = .ok i ∧ i.rd = k) ∨
    (∃ j v rest, s.inputs = .access (.write (limbOffset k j) 8 0xFF v) :: rest) ∨
    (∃ held rest, s.inputs = .reset held :: rest)

/-! ## The host port -/

/-- A step runs the decoded command (20_memory.md, Ordering): when the port's next access writes to CMD a word
that decodes to `i`, the step is `exec i` on the state with that access taken, and then the write is answered.
The word placed by `withFetchWord` is such a write. -/
def Obligations.StepRunsTheDecodedCommand : Prop :=
  (∀ (s : State) (c : BitVec 64) (i : Instr) (rest : List PortEvent),
    s.inputs = .access (commandWrite c) :: rest → decode c = .ok i →
    ∃ t, exec i { s with inputs := rest } = .next t ∧
      step s = .next { t with responses := s.responses ++ [.done] }) ∧
  (∀ (s : State) (w : Nat) (i : Instr), decodeTableWord 64 w = some i →
    ∃ t, exec i s = .next t ∧
      step (s.withFetchWord 64 w) = .next { t with responses := s.responses ++ [.done] })

/-- R51, R52, R53 and R81 at the port: a CMD write whose opcode is none of the three records ILLEGAL_OPCODE, one
with a legal opcode and a reserved bit records RESERVED_BITS, each only if ERR was 0, and neither writes a W
register or INV; any other word is executed with the fields at bits 7:4, 11:8, 15:12 and 19:16. The CMD write
completes normally in every case. -/
def Obligations.CommandWordsAreDecodedOrRecorded : Prop :=
  ∀ (s : State) (c : BitVec 64) (rest : List PortEvent),
    s.inputs = .access (commandWrite c) :: rest →
    let opc := c.toNat % 16
    let recorded (code : BitVec 4) : Prop :=
      ∃ t, step s = .next t ∧ Answered s t rest .done ∧ (∀ k, t.readW k = s.readW k) ∧ t.inv = s.inv ∧
        t.err = true ∧ t.cause = (if s.err = true then s.cause else code)
    (¬ (opc = 1 ∨ opc = 2 ∨ opc = 3) → recorded 1) ∧
    ((opc = 1 ∨ opc = 2 ∨ opc = 3) → c.toNat / 2 ^ 20 ≠ 0 → recorded 2) ∧
    ((opc = 1 ∨ opc = 2 ∨ opc = 3) → c.toNat / 2 ^ 20 = 0 →
      ∃ i : Instr, i.opc.toNat = opc ∧ i.rd.val = c.toNat / 2 ^ 4 % 16 ∧ i.ra.val = c.toNat / 2 ^ 8 % 16 ∧
        i.rb.val = c.toNat / 2 ^ 12 % 16 ∧ i.rp.val = c.toNat / 2 ^ 16 % 16 ∧
        ∃ t, exec i { s with inputs := rest } = .next t ∧
          step s = .next { t with responses := s.responses ++ [.done] })

/-- R83: ERR blocks nothing. A command runs the same whatever STATUS holds, and a command error while ERR = 1
leaves the state as it is. -/
def Obligations.ErrBlocksNothing : Prop :=
  (∀ (i : Instr) (s : State) (e : Bool) (x : BitVec 4), ∃ t, exec i s = .next t ∧
    exec i { s with err := e, cause := x } = .next { t with err := e, cause := x }) ∧
  (∀ (c : BitVec 64) (s : State) (d : DecodeError), s.err = true → decode c = .error d →
    issueCommand c s = .next s)

/-- R82: a host write to STATUS with bit 0 = 1 clears ERR and CAUSE, one with bit 0 = 0 changes nothing, bits
63:1 do not matter; reset also clears both; and nothing else does. -/
def Obligations.OnlyStatusWritesAndResetClearErrors : Prop :=
  (∀ (s : State) (v : Limb) (rest : List PortEvent),
    s.inputs = .access (.write 0x008 8 0xFF v) :: rest →
    ∃ t, step s = .next t ∧ Answered s t rest .done ∧ (∀ k, t.readW k = s.readW k) ∧ t.inv = s.inv ∧
      t.err = (if v.toNat % 2 = 1 then false else s.err) ∧
      t.cause = (if v.toNat % 2 = 1 then 0 else s.cause)) ∧
  (∀ (s : State) (held : List Access) (rest : List PortEvent), s.inputs = .reset held :: rest →
    ∃ t, step s = .next t ∧ t.err = false ∧ t.cause = 0) ∧
  (∀ s t : State, step s = .next t →
    (s.err = true ∧ t.err = false) ∨ (s.cause ≠ 0 ∧ t.cause = 0) →
    (∃ v rest, s.inputs = .access (.write 0x008 8 0xFF v) :: rest ∧ v.toNat % 2 = 1) ∨
    (∃ held rest, s.inputs = .reset held :: rest))

/-- R33: `MemRead`, as its pseudocode has it, for every offset and size; and a read changes no register. -/
def Obligations.HostReadReturnsTheMappedValue : Prop :=
  (∀ (s : State) (off n : Nat),
    s.memRead off n =
      if n ≠ 8 ∨ off % 8 ≠ 0 ∨ 0x800 ≤ off then .error .busError
      else .ok (
        if off = 0x000 then 0
        else if off = 0x008 then BitVec.ofNat 64 (16 * s.cause.toNat + s.err.toNat)
        else if off = 0x010 then s.inv
        else if 0x400 ≤ off ∧ (off - 0x400) % 0x40 / 8 ≤ 5 then
          (s.w.toList.getD ((off - 0x400) / 2 ^ 6) 0).extractLsb' (64 * ((off - 0x400) % 0x40 / 8)) 64
        else 0)) ∧
  (∀ (s : State) (off n : Nat) (v : Limb) (rest : List PortEvent),
    s.inputs = .access (.read off n) :: rest → s.memRead off n = .ok v →
    step s = .next { s with inputs := rest, responses := s.responses ++ [.data v] })

/-- R34: `MemWrite`, case by case as its pseudocode has it, for every offset, size, lanes and value. -/
def Obligations.HostWriteStoresToItsTarget : Prop :=
  ∀ (s : State) (off n : Nat) (lanes : BitVec 8) (v : Limb),
    ((n ≠ 8 ∨ lanes ≠ 0xFF ∨ off % 8 ≠ 0 ∨ 0x800 ≤ off) → memWrite off n lanes v s = .fault .busError) ∧
    (n = 8 → lanes = 0xFF → off % 8 = 0 → off < 0x800 →
      (off = 0x000 → memWrite off n lanes v s = issueCommand v s) ∧
      (off = 0x008 → memWrite off n lanes v s =
        .next (if v.toNat % 2 = 1 then { s with err := false, cause := 0 } else s)) ∧
      (off = 0x010 → memWrite off n lanes v s = .next { s with inv := v }) ∧
      (∀ (k : RegIdx) (j : LimbIdx), off = 0x400 + 0x40 * k.val + 8 * j.val →
        ∃ t, memWrite off n lanes v s = .next t ∧
          (∀ (k' : RegIdx) (j' : LimbIdx), limb (t.readW k') j'.val =
            if k' = k ∧ j' = j then v else limb (s.readW k') j'.val) ∧
          t.inv = s.inv ∧ t.err = s.err ∧ t.cause = s.cause ∧
          t.inputs = s.inputs ∧ t.responses = s.responses ∧ t.draws = s.draws) ∧
      ((0x018 ≤ off ∧ off < 0x400) ∨ (0x400 ≤ off ∧ 0x30 ≤ (off - 0x400) % 0x40) →
        memWrite off n lanes v s = .next s))

/-- R32: an aligned 8-byte read of a reserved offset or of slot padding returns 0 and an aligned 8-byte write
there changes nothing; neither raises an error. -/
def Obligations.ReservedOffsetsReadZeroAndIgnoreWrites : Prop :=
  ∀ (s : State) (off : Nat) (rest : List PortEvent), off % 8 = 0 → off < 0x800 →
    (0x018 ≤ off ∧ off < 0x400) ∨ (0x400 ≤ off ∧ 0x30 ≤ (off - 0x400) % 0x40) →
    (s.inputs = .access (.read off 8) :: rest →
      step s = .next { s with inputs := rest, responses := s.responses ++ [.data 0] }) ∧
    (∀ v, s.inputs = .access (.write off 8 0xFF v) :: rest →
      step s = .next { s with inputs := rest, responses := s.responses ++ [.done] })

/-- A bus error (60_exceptions.md, Bus error; 20_memory.md R31): an access of another size than 8 bytes, with partial
lanes on a write, at an offset that is no multiple of 8 or not below 0x800, and no other, is not performed: no state
changes, no command is issued, and the answer is the error response, without data. That an offset of 0x800 or more is
among these is in the pseudocode of 20_memory.md R33 and R34 (`off >= 0x800: raise BusError`) and not in the list of
60_exceptions.md R84: log 12 (DEDUCED). -/
def Obligations.BusErrorChangesNothing : Prop :=
  ∀ (s : State) (a : Access) (rest : List PortEvent), s.inputs = .access a :: rest →
    let broken : Prop := match a with
      | .read off n => n ≠ 8 ∨ off % 8 ≠ 0 ∨ 0x800 ≤ off
      | .write off n lanes _ => n ≠ 8 ∨ lanes ≠ 0xFF ∨ off % 8 ≠ 0 ∨ 0x800 ≤ off
    (broken → step s = .next { s with inputs := rest, responses := s.responses ++ [.busError] }) ∧
    (¬ broken → ∃ t r, step s = .next t ∧ Answered s t rest r ∧ r ≠ .busError ∧ r ≠ .abandoned)

/-- R85: a malformed CMD write is never decoded, so it records no command error; an illegal opcode is recorded
before reserved bits; one access raises at most one error: an access answered with a bus error leaves STATUS,
and a command error is answered as a completed write. -/
def Obligations.ErrorPriority : Prop :=
  (∀ (s : State) (n : Nat) (lanes : BitVec 8) (c : Limb) (rest : List PortEvent),
    s.inputs = .access (.write 0x000 n lanes c) :: rest → n ≠ 8 ∨ lanes ≠ 0xFF →
    ∃ t, step s = .next t ∧ SameRegisters s t ∧ Answered s t rest .busError) ∧
  (∀ c : BitVec 64, ¬ (c.toNat % 16 = 1 ∨ c.toNat % 16 = 2 ∨ c.toNat % 16 = 3) → c.toNat / 2 ^ 20 ≠ 0 →
    decode c = .error .illegalOpcode) ∧
  (∀ (s t : State) (a : Access) (rest : List PortEvent) (r : Response),
    s.inputs = .access a :: rest → step s = .next t → t.responses = s.responses ++ [r] →
    (r = .busError → SameRegisters s t) ∧ (¬ (t.err = s.err ∧ t.cause = s.cause) → r = .done))

/-- R36: reads have no side effect and a repeated read answers the same; a write to INV or to a limb stores its
value and does nothing else; a write to STATUS with bit 0 = 1 is idempotent, a write to CMD is not. -/
def Obligations.SideEffectsOfAccesses : Prop :=
  (∀ (s t : State) (off n : Nat) (rest : List PortEvent),
    s.inputs = .access (.read off n) :: .access (.read off n) :: rest →
    Host.Core.run Sys2Proof.core 2 s = .next t →
    SameRegisters s t ∧ ∃ r, t.responses = s.responses ++ [r, r]) ∧
  (∀ (s : State) (v : Limb), memWrite 0x010 8 0xFF v s = .next { s with inv := v }) ∧
  (∀ (s : State) (k : RegIdx) (j : LimbIdx) (v : Limb),
    ∃ t, memWrite (limbOffset k j) 8 0xFF v s = .next t ∧ OnlyWChanges k s t ∧
      ∀ j' : LimbIdx, limb (t.readW k) j'.val = if j' = j then v else limb (s.readW k) j'.val) ∧
  (∀ (s : State) (v : Limb), v.toNat % 2 = 1 →
    ∃ t, memWrite 0x008 8 0xFF v s = .next t ∧ memWrite 0x008 8 0xFF v t = .next t) ∧
  (∃ (s t u : State) (c : Limb), memWrite 0x000 8 0xFF c s = .next t ∧ memWrite 0x000 8 0xFF c t = .next u ∧
    u ≠ t)

/-- Byte order (20_memory.md, Address space and map): byte `n` of a register's slot is `W[k][8*n+7 : 8*n]`, and
the bytes of an aligned word are its bits from the least significant up. -/
def Obligations.WindowIsLittleEndian : Prop :=
  (∀ (s : State) (k : RegIdx) (n : Nat), n < 48 →
    s.windowByte (slotOffset k + n) = (s.readW k).extractLsb' (8 * n) 8) ∧
  (∀ (s : State) (off j : Nat) (v : Limb), j < 8 → s.memRead off 8 = .ok v →
    s.windowByte (off + j) = v.extractLsb' (8 * j) 8)

/-- The map of the window (20_memory.md, Address space and map): every limb of every register has an offset of its
own, a multiple of 8 in the window, from which the map finds it again; nothing else is mapped to it; and no limb's
offset is CMD's, STATUS's or INV's. The window lies at a multiple of its size. -/
def Obligations.EveryLimbHasItsOwnOffset : Prop :=
  (∀ (k : RegIdx) (j : LimbIdx), limbOffset k j = 0x400 + 0x40 * k.val + 8 * j.val ∧
    limbOffset k j % 8 = 0 ∧ limbOffset k j < 0x800 ∧ targetOf (limbOffset k j) = .limb k j) ∧
  (∀ (off : Nat) (k : RegIdx) (j : LimbIdx), off % 8 = 0 → targetOf off = .limb k j → off = limbOffset k j) ∧
  (∀ off : Nat, (targetOf off = .cmd ↔ off = 0x000) ∧ (targetOf off = .status ↔ off = 0x008) ∧
    (targetOf off = .inv ↔ off = 0x010)) ∧
  (Config.base % 0x800 = 0 ∧ ∀ off : Nat, off < 0x800 → Config.windowOffset (Config.base + off) = some off) ∧
  (∀ addr off : Nat, Config.windowOffset addr = some off → addr = Config.base + off ∧ off < 0x800)

/-- `setw` then `getw` (30_encoding.md, Assembler syntax): the six writes leave the value in the register and
nothing else changed, and the six reads give it back. -/
def Obligations.SetwThenGetwReturnsTheValue : Prop :=
  ∀ (s : State) (k : RegIdx) (x : Word384),
    ∃ t, Host.Core.run Sys2Proof.core 12
        (s.withAccesses ((AsmLine.setw k x).expand ++ (AsmLine.getw k).expand)) = .next t ∧
      t.readW k = x ∧ OnlyWChanges k { s with responses := t.responses } t ∧
      t.responses = s.responses ++ List.replicate 6 .done ++ (limbs x).map .data ∧
      getwResult (limbs x) = x.toNat

/-- The lines of the syntax and what they expand to (30_encoding.md R56): one line of text of each of its forms, and
for every value the host accesses of each form, in order: `setw` and `getw` are six of them, limb 0 first, and the
six reads of `getw` denote `sum ld_i * 2^(64*i)`. The white space of these lines and that `w16` is refused are the
model's reader, log 10 (DESIGN CHOICE). -/
def Obligations.LinesOfTextExpandToAccesses : Prop :=
  (assemble "addmod w4, w2, w3, w1".toList = some (.command (.addmod 4 2 3 1)) ∧
    assemble "SUBMOD W0, W1, W2, W3".toList = some (.command (.submod 0 1 2 3)) ∧
    assemble "mulmod w15, w14, w13, w12".toList = some (.command (.mulmod 15 14 13 12)) ∧
    assemble ".cmd 0".toList = some (.rawCmd 0) ∧
    assemble "st 0x7e8, 0x5".toList = some (.st 0x7e8 5) ∧
    assemble "ld 0x4c0".toList = some (.ld 0x4c0) ∧
    assemble "setw w1, 0xb9".toList = some (.setw 1 0xb9) ∧
    assemble "getw w15".toList = some (.getw 15) ∧
    assemble "SETINV 0x89f3fffcfffcfffd".toList = some (.setinv 0x89f3fffcfffcfffd) ∧
    assemble "getstatus".toList = some .getstatus ∧
    assemble "clrerr".toList = some .clrerr ∧
    assemble "getw w16".toList = none) ∧
  (∀ i : Instr, (AsmLine.command i).expand = [.write 0x000 8 0xFF (encode i)]) ∧
  (AsmLine.command (.addmod 4 2 3 1)).expand = [.write 0x000 8 0xFF 0x0000000000013241] ∧
  (∀ c : Limb, (AsmLine.rawCmd c).expand = [.write 0x000 8 0xFF c]) ∧
  (∀ (off : Nat) (v : Limb), (AsmLine.st off v).expand = [.write off 8 0xFF v]) ∧
  (∀ off : Nat, (AsmLine.ld off).expand = [.read off 8]) ∧
  (∀ (k : RegIdx) (x : Word384), (AsmLine.setw k x).expand =
    [.write (0x400 + 0x40 * k.val + 8 * 0) 8 0xFF (limb x 0), .write (0x400 + 0x40 * k.val + 8 * 1) 8 0xFF (limb x 1),
      .write (0x400 + 0x40 * k.val + 8 * 2) 8 0xFF (limb x 2), .write (0x400 + 0x40 * k.val + 8 * 3) 8 0xFF (limb x 3),
      .write (0x400 + 0x40 * k.val + 8 * 4) 8 0xFF (limb x 4),
      .write (0x400 + 0x40 * k.val + 8 * 5) 8 0xFF (limb x 5)]) ∧
  (∀ k : RegIdx, (AsmLine.getw k).expand =
    [.read (0x400 + 0x40 * k.val + 8 * 0) 8, .read (0x400 + 0x40 * k.val + 8 * 1) 8,
      .read (0x400 + 0x40 * k.val + 8 * 2) 8, .read (0x400 + 0x40 * k.val + 8 * 3) 8,
      .read (0x400 + 0x40 * k.val + 8 * 4) 8, .read (0x400 + 0x40 * k.val + 8 * 5) 8]) ∧
  (∀ ld : Fin 6 → Limb, getwResult (List.ofFn ld) = ∑ i, (ld i).toNat * 2 ^ (64 * i.val)) ∧
  (∀ x : Limb, (AsmLine.setinv x).expand = [.write 0x010 8 0xFF x]) ∧
  AsmLine.getstatus.expand = [.read 0x008 8] ∧ AsmLine.clrerr.expand = [.write 0x008 8 0xFF 1]

/-! ## Reset, invariants, progress -/

/-- The reset values (10_state.md, Reset values): every W register, INV, ERR and CAUSE are 0, every aligned offset
of the window reads 0, and no access is pending. -/
def Obligations.ResetValues : Prop :=
  (∀ k, State.reset.readW k = 0) ∧ State.reset.inv = 0 ∧ State.reset.err = false ∧ State.reset.cause = 0 ∧
  State.reset.inputs = [] ∧
  (∀ off : Nat, off % 8 = 0 → off < 0x800 → State.reset.memRead off 8 = .ok 0) ∧
  State.reset.StatusInv

/-- Reset in any state, with any accesses held at the port (70_reset_and_hazards.md, Reset; that a reset is one
event which carries the held accesses is the model's reading, log 9): every register takes its reset value, so no
part of an abandoned command survives; each held access ends without effect, with an error response or abandoned. -/
def Obligations.ResetAbandonsWhatIsHeld : Prop :=
  ∀ (s : State) (held : List Access) (rest : List PortEvent), s.inputs = .reset held :: rest →
    ∃ t rs, step s = .next t ∧ (∀ k, t.readW k = 0) ∧ t.inv = 0 ∧ t.err = false ∧ t.cause = 0 ∧
      t.inputs = rest ∧ t.responses = s.responses ++ rs ∧ rs.length = held.length ∧
      ∀ r ∈ rs, r = .busError ∨ r = .abandoned

/-- R27: every step keeps the invariants of STATUS: ERR is 0 exactly when CAUSE is 0, CAUSE is 0, 1 or 2, and the
reserved bits 3:1 and 63:8 read 0. -/
def Obligations.StepKeepsTheStatusInvariant : Prop :=
  (∀ s t : State, s.StatusInv → step s = .next t → t.StatusInv) ∧
  (∀ s t : State, step s = .next t → ∃ v, t.memRead 0x008 8 = .ok v ∧
    v.extractLsb' 1 3 = 0 ∧ v.extractLsb' 8 56 = 0)

/-- The block never stops, and it serves every event in its turn (20_memory.md, Ordering; 60_exceptions.md, Timers,
devices, multiprocessing, debug and power): after as many steps as there are events, each access has one answer, in
order, and the accesses a reset catches have one each. With no event waiting the block holds its state. The model's
own here: that a reset is one event which carries the accesses it catches is log 9 (DEDUCED), and that each of these
has an answer, an abandonment counted as one, is log 3 (DESIGN CHOICE). -/
def Obligations.EveryAccessIsServedInOrder : Prop :=
  (∀ s : State, s.inputs = [] → step s = .next s) ∧
  (∀ (s : State) (e : PortEvent) (rest : List PortEvent), s.inputs = e :: rest →
    ∃ t, step s = .next t ∧ t.inputs = rest) ∧
  (∀ (s : State), ∃ t rs, Host.Core.run Sys2Proof.core s.inputs.length s = .next t ∧ t.inputs = [] ∧
    t.responses = s.responses ++ rs ∧
    rs.length = (s.inputs.map answersOwed).sum)

/-- The view of a host that faults on an error response (93_implementation_defined.md U10): it stops with the bus
error exactly when the access at the head of the port breaks 20_memory.md R31, which is exactly when the block's own
step answers an access with the bus error; otherwise it is the block's step. That the block itself goes on is log 5
(DEDUCED), and that an offset of 0x800 or more breaks R31 for 60_exceptions.md R84 too is log 12 (DEDUCED). -/
def Obligations.StrictStepStopsExactlyOnBusErrors : Prop :=
  ∀ s : State,
    (strictStep s = .fault .busError ↔
      (∃ off n rest, s.inputs = .access (.read off n) :: rest ∧ (n ≠ 8 ∨ off % 8 ≠ 0 ∨ 0x800 ≤ off)) ∨
      (∃ off n lanes v rest, s.inputs = .access (.write off n lanes v) :: rest ∧
        (n ≠ 8 ∨ lanes ≠ 0xFF ∨ off % 8 ≠ 0 ∨ 0x800 ≤ off))) ∧
    (strictStep s = .fault .busError ↔
      (∃ a rest, s.inputs = .access a :: rest) ∧
      ∃ t, step s = .next t ∧ t.responses = s.responses ++ [.busError]) ∧
    (strictStep s ≠ .fault .busError → strictStep s = step s)
end

