-- ==== Sys2Proof/Laws/Limbs.lean ====
section
/-! SUPPORT. Limbs of a 384-bit value: reading after writing a limb, and the number six limbs denote. -/

namespace Sys2Proof

namespace Machine

set_option exponentiation.threshold 400

theorem getLsbD_limb (x : Word384) (i n : Nat) (h : n < 64) :
    (limb x i).getLsbD n = x.getLsbD (64 * i + n) := by
  simp [limb, h]

theorem getLsbD_limbMask (n : Nat) : limbMask.getLsbD n = decide (n < 64) := by
  rw [limbMask, BitVec.getLsbD_setWidth, BitVec.getLsbD_allOnes]
  by_cases h : n < 64
  · simp [h, show n < 384 by omega]
  · simp [h]

/-- Every bit of a value with one limb written (10_state.md R15). -/
theorem getLsbD_setLimb (x : Word384) (i n : Nat) (v : Limb) (h : n < 384) :
    (setLimb x i v).getLsbD n =
      if 64 * i ≤ n ∧ n < 64 * i + 64 then v.getLsbD (n - 64 * i) else x.getLsbD n := by
  simp only [setLimb, BitVec.getLsbD_or, BitVec.getLsbD_and, BitVec.getLsbD_not,
    BitVec.getLsbD_shiftLeft, getLsbD_limbMask, BitVec.getLsbD_setWidth, h, decide_true, Bool.true_and]
  by_cases hlo : n < 64 * i
  · simp [hlo, show ¬ 64 * i ≤ n by omega]
  · by_cases hhi : n < 64 * i + 64
    · simp [hlo, show 64 * i ≤ n by omega, hhi, show n - 64 * i < 64 by omega,
        show n - 64 * i < 384 by omega]
    · have hv : v.getLsbD (n - 64 * i) = false := BitVec.getLsbD_of_ge _ _ (by omega)
      simp [hlo, hhi, hv, show ¬ n - 64 * i < 64 by omega]

theorem limb_setLimb_same (x : Word384) (i : LimbIdx) (v : Limb) : limb (setLimb x i.val v) i.val = v := by
  apply BitVec.eq_of_getLsbD_eq
  intro n hn
  rw [getLsbD_limb _ _ _ hn, getLsbD_setLimb _ _ _ _ (by omega), if_pos (by omega), Nat.add_sub_cancel_left]

theorem limb_setLimb_other (x : Word384) (i j : LimbIdx) (v : Limb) (h : j ≠ i) :
    limb (setLimb x i.val v) j.val = limb x j.val := by
  apply BitVec.eq_of_getLsbD_eq
  intro n hn
  have hne : j.val ≠ i.val := fun e => h (Fin.ext e)
  rw [getLsbD_limb _ _ _ hn, getLsbD_limb _ _ _ hn, getLsbD_setLimb _ _ _ _ (by omega), if_neg (by omega)]

theorem limb_setLimb (x : Word384) (i j : LimbIdx) (v : Limb) :
    limb (setLimb x i.val v) j.val = if j = i then v else limb x j.val := by
  split
  · next h => rw [h, limb_setLimb_same]
  · next h => exact limb_setLimb_other x i j v h

/-- A value is the value of its limbs. -/
theorem eq_of_limbs_eq {x y : Word384} (h : ∀ i : LimbIdx, limb x i.val = limb y i.val) : x = y := by
  apply BitVec.eq_of_getLsbD_eq
  intro n hn
  have hi := h ⟨n / 64, by omega⟩
  have := congrArg (fun z => z.getLsbD (n % 64)) hi
  simpa [getLsbD_limb _ _ _ (Nat.mod_lt n (by omega : 0 < 64)), Nat.div_add_mod] using this

theorem toNat_limb (x : Word384) (i : Nat) : (limb x i).toNat = x.toNat / 2 ^ (64 * i) % 2 ^ 64 := by
  simp [limb, Nat.shiftRight_eq_div_pow]

theorem limbsVal_lt (ls : List Limb) : limbsVal ls < 2 ^ (64 * ls.length) := by
  induction ls with
  | nil => simp [limbsVal]
  | cons l rest ih =>
    have hl := l.isLt
    have : 2 ^ (64 * (rest.length + 1)) = 2 ^ 64 * 2 ^ (64 * rest.length) := by
      rw [← pow_add]; congr 1; ring
    simp only [limbsVal, List.length_cons, this]
    omega

theorem limbsVal_append (xs ys : List Limb) :
    limbsVal (xs ++ ys) = limbsVal xs + 2 ^ (64 * xs.length) * limbsVal ys := by
  induction xs with
  | nil => simp [limbsVal]
  | cons x rest ih =>
    simp only [List.cons_append, limbsVal, ih, List.length_cons]
    rw [show 64 * (rest.length + 1) = 64 + 64 * rest.length by ring, pow_add]
    ring

/-- The six limbs of a value denote it (00_scope.md R6). -/
theorem limbsVal_limbs (x : Word384) : limbsVal (limbs x) = x.toNat := by
  have h := x.isLt
  simp only [limbs, limbsVal, toNat_limb]
  omega

@[simp] theorem limbs_length (x : Word384) : (limbs x).length = 6 := rfl

@[simp] theorem ofLimbs_limbs (x : Word384) : ofLimbs (limbs x) = x := by
  rw [ofLimbs, limbsVal_limbs, BitVec.ofNat_toNat, BitVec.setWidth_eq]

theorem toNat_ofLimbs (ls : List Limb) : (ofLimbs ls).toNat = limbsVal ls % 2 ^ 384 := by
  unfold ofLimbs
  exact BitVec.toNat_ofNat _ _

end Machine

end Sys2Proof
end

