-- ==== Sys2Proof/Laws/Datapath.lean ====
section
/-! SUPPORT. What each chain of the datapaths computes, as one equation over the numbers its limbs denote. The
callers cite these and never unfold a chain. -/

namespace Sys2Proof

namespace Machine

set_option exponentiation.threshold 1000

theorem addCarry_spec (a b : Limb) (c : Bool) :
    (addCarry a b c).1.toNat + 2 ^ 64 * (addCarry a b c).2.toNat = a.toNat + b.toNat + c.toNat := by
  have ha := a.isLt
  have hb := b.isLt
  have hc : c.toNat ≤ 1 := Bool.toNat_le c
  by_cases h : 2 ^ 64 ≤ a.toNat + b.toNat + c.toNat <;>
    simp only [addCarry, h, decide_true, decide_false, Bool.toNat_true, Bool.toNat_false, BitVec.toNat_ofNat] <;>
    omega

theorem subBorrow_spec (a b : Limb) (br : Bool) :
    a.toNat + 2 ^ 64 * (subBorrow a b br).2.toNat = (subBorrow a b br).1.toNat + b.toNat + br.toNat := by
  have ha := a.isLt
  have hb := b.isLt
  have hc : br.toNat ≤ 1 := Bool.toNat_le br
  by_cases h : a.toNat < b.toNat + br.toNat <;> simp [subBorrow, h] <;> omega

theorem addChain_length (as bs : List Limb) (c : Bool) (h : as.length = bs.length) :
    (addChain as bs c).1.length = as.length := by
  induction as generalizing bs c with
  | nil => simp [addChain]
  | cons a as ih =>
    cases bs with
    | nil => simp at h
    | cons b bs => simp [addChain, ih bs _ (by simpa using h)]

theorem subChain_length (as bs : List Limb) (c : Bool) (h : as.length = bs.length) :
    (subChain as bs c).1.length = as.length := by
  induction as generalizing bs c with
  | nil => simp [subChain]
  | cons a as ih =>
    cases bs with
    | nil => simp at h
    | cons b bs => simp [subChain, ih bs _ (by simpa using h)]

/-- The carry chain adds: the sum limbs and the carry out are the exact sum (40_add_sub.md R60). -/
theorem addChain_spec (as bs : List Limb) (c : Bool) (h : as.length = bs.length) :
    limbsVal (addChain as bs c).1 + 2 ^ (64 * as.length) * (addChain as bs c).2.toNat
      = limbsVal as + limbsVal bs + c.toNat := by
  induction as generalizing bs c with
  | nil => cases bs <;> simp_all [addChain, limbsVal]
  | cons a as ih =>
    cases bs with
    | nil => simp at h
    | cons b bs =>
      have here := addCarry_spec a b c
      have above := ih bs (addCarry a b c).2 (by simpa using h)
      simp only [addChain, limbsVal, List.length_cons, show 64 * (as.length + 1) = 64 + 64 * as.length by ring,
        pow_add]
      linear_combination here + 2 ^ 64 * above

/-- The borrow chain subtracts: the difference limbs and the borrow out are the exact difference
(40_add_sub.md R60, R63). -/
theorem subChain_spec (as bs : List Limb) (br : Bool) (h : as.length = bs.length) :
    limbsVal as + 2 ^ (64 * as.length) * (subChain as bs br).2.toNat
      = limbsVal (subChain as bs br).1 + limbsVal bs + br.toNat := by
  induction as generalizing bs br with
  | nil => cases bs <;> simp_all [subChain, limbsVal]
  | cons a as ih =>
    cases bs with
    | nil => simp at h
    | cons b bs =>
      have here := subBorrow_spec a b br
      have above := ih bs (subBorrow a b br).2 (by simpa using h)
      simp only [subChain, limbsVal, List.length_cons, show 64 * (as.length + 1) = 64 + 64 * as.length by ring,
        pow_add]
      linear_combination here + 2 ^ 64 * above

/-- One limb product with its additions fits in 128 bits (41_montgomery_mul.md R71). -/
theorem mac_lt (t m b c : Limb) : t.toNat + m.toNat * b.toNat + c.toNat < 2 ^ 128 := by
  have ht := t.isLt
  have hc := c.isLt
  have : m.toNat * b.toNat ≤ (2 ^ 64 - 1) * (2 ^ 64 - 1) :=
    Nat.mul_le_mul (Nat.le_sub_one_of_lt m.isLt) (Nat.le_sub_one_of_lt b.isLt)
  omega

theorem macRow_length (m : Limb) (ts bs : List Limb) (c : Limb) (h : ts.length = bs.length) :
    (macRow m ts bs c).1.length = ts.length := by
  induction ts generalizing bs c with
  | nil => simp [macRow]
  | cons t ts ih =>
    cases bs with
    | nil => simp at h
    | cons b bs => simp [macRow, ih bs _ (by simpa using h)]

/-- A row of limb products adds `m * b` to the limbs exactly (41_montgomery_mul.md R71). -/
theorem macRow_spec (m : Limb) (ts bs : List Limb) (c : Limb) (h : ts.length = bs.length) :
    limbsVal (macRow m ts bs c).1 + 2 ^ (64 * ts.length) * (macRow m ts bs c).2.toNat
      = limbsVal ts + m.toNat * limbsVal bs + c.toNat := by
  induction ts generalizing bs c with
  | nil => cases bs <;> simp_all [macRow, limbsVal]
  | cons t ts ih =>
    cases bs with
    | nil => simp at h
    | cons b bs =>
      have bound := mac_lt t m b c
      have above := ih bs (BitVec.ofNat 64 ((t.toNat + m.toNat * b.toNat + c.toNat) >>> 64)) (by simpa using h)
      have carry : (BitVec.ofNat 64 ((t.toNat + m.toNat * b.toNat + c.toNat) >>> 64)).toNat
          = (t.toNat + m.toNat * b.toNat + c.toNat) / 2 ^ 64 := by
        rw [BitVec.toNat_ofNat, Nat.shiftRight_eq_div_pow, Nat.mod_eq_of_lt (by omega)]
      have split := Nat.div_add_mod (t.toNat + m.toNat * b.toNat + c.toNat) (2 ^ 64)
      rw [carry] at above
      simp only [macRow, limbsVal, List.length_cons, BitVec.toNat_ofNat,
        show 64 * (ts.length + 1) = 64 + 64 * ts.length by ring, pow_add]
      linear_combination split + 2 ^ 64 * above

/-- The number in the working register, by its parts. -/
theorem CiosReg.val_eq (t : CiosReg) (h : t.lo.length = 6) :
    t.val = limbsVal t.lo + 2 ^ 384 * t.t6.toNat + 2 ^ 448 * t.t7.toNat := by
  unfold CiosReg.val
  rw [limbsVal_append, h]
  simp only [limbsVal]
  ring

theorem ciosMultiply_length (b : Word384) (t : CiosReg) (ai : Limb) (h : t.lo.length = 6) :
    (ciosMultiply b t ai).lo.length = 6 := by
  simp only [ciosMultiply]
  rw [macRow_length _ _ _ _ (by simp [h]), h]

theorem ciosReduce_length (p : Word384) (inv : Limb) (t : CiosReg) (h : t.lo.length = 6) :
    (ciosReduce p inv t).lo.length = 6 := by
  simp only [ciosReduce, List.length_append, List.length_tail]
  rw [macRow_length _ _ _ _ (by simp [h]), h]
  rfl

/-- The first half of an outer step adds one limb's product, exactly (41_montgomery_mul.md R71). -/
theorem ciosMultiply_val (b : Word384) (t : CiosReg) (ai : Limb) (h : t.lo.length = 6) (h7 : t.t7 = 0) :
    (ciosMultiply b t ai).val = t.val + ai.toNat * b.toNat := by
  rw [CiosReg.val_eq _ (ciosMultiply_length b t ai h), CiosReg.val_eq _ h, h7]
  have row := macRow_spec ai t.lo (limbs b) 0 (by simp [h])
  rw [h, limbsVal_limbs] at row
  have h6 := t.t6.isLt
  have hc := (macRow ai t.lo (limbs b) 0).2.isLt
  simp only [ciosMultiply, BitVec.toNat_ofNat, Nat.shiftRight_eq_div_pow, Nat.reduceMul,
    show BitVec.toNat (0 : Limb) = 0 from rfl] at row ⊢
  rw [Nat.mod_eq_of_lt (by omega : (t.t6.toNat + (macRow ai t.lo (limbs b) 0).2.toNat) / 2 ^ 64 < 2 ^ 64)]
  have split := Nat.div_add_mod (t.t6.toNat + (macRow ai t.lo (limbs b) 0).2.toNat) (2 ^ 64)
  linear_combination row + 2 ^ 384 * split

/-- The second half of an outer step adds `m * p` and shifts one limb out, where the sum fits in 449 bits
(41_montgomery_mul.md R71). -/
theorem ciosReduce_val (p : Word384) (inv : Limb) (t : CiosReg) (h : t.lo.length = 6)
    (hb : t.val + (t.lo.headD 0 * inv).toNat * p.toNat < 2 ^ 449) :
    (ciosReduce p inv t).val = (t.val + (t.lo.headD 0 * inv).toNat * p.toNat) / 2 ^ 64 ∧
      ((ciosReduce p inv t).t6 = 0 ∨ (ciosReduce p inv t).t6 = 1) ∧ (ciosReduce p inv t).t7 = 0 := by
  rw [CiosReg.val_eq _ (ciosReduce_length p inv t h)]
  rw [CiosReg.val_eq _ h] at hb ⊢
  generalize hm : t.lo.headD 0 * inv = m at hb ⊢
  have row := macRow_spec m t.lo (limbs p) 0 (by simp [h])
  have len := macRow_length m t.lo (limbs p) 0 (by simp [h])
  rw [h, limbsVal_limbs] at row
  rw [h] at len
  simp only [ciosReduce, hm]
  generalize hr : macRow m t.lo (limbs p) 0 = out at row len ⊢
  obtain ⟨ls, c⟩ := out
  simp only at row len ⊢
  match ls, len with
  | x :: xs, len =>
    have five : xs.length = 5 := by simpa using len
    simp only [List.tail_cons]
    rw [limbsVal_append, five]
    have h6 := t.t6.isLt
    have h7 := t.t7.isLt
    have hc := c.isLt
    have hx := x.isLt
    have hxs := limbsVal_lt xs
    rw [five] at hxs
    simp only [limbsVal, BitVec.toNat_ofNat, BitVec.toNat_add, Nat.shiftRight_eq_div_pow, Nat.reduceMul,
      show BitVec.toNat (0 : Limb) = 0 from rfl] at row ⊢
    generalize m.toNat * p.toNat = mp at *
    refine ⟨by omega, ?_, trivial⟩
    rw [← BitVec.toNat_inj, ← BitVec.toNat_inj]
    simp only [BitVec.toNat_add, BitVec.toNat_ofNat, show BitVec.toNat (0 : Limb) = 0 from rfl,
      show BitVec.toNat (1 : Limb) = 1 from rfl]
    omega

/-- One more outer step. -/
theorem ciosRun_succ (a b p : Word384) (inv : Limb) (n : Nat) (h : n < 6) :
    ciosRun a b p inv (n + 1) = ciosReduce p inv (ciosMultiply b (ciosRun a b p inv n) (limb a n)) := by
  have take : (limbs a).take (n + 1) = (limbs a).take n ++ [limb a n] := by
    match n, h with
    | 0, _ => rfl
    | 1, _ => rfl
    | 2, _ => rfl
    | 3, _ => rfl
    | 4, _ => rfl
    | 5, _ => rfl
  simp only [ciosRun, take, List.foldl_append, List.foldl_cons, List.foldl_nil, ciosStep]

end Machine

end Sys2Proof
end

