-- ==== Sys2Proof/Laws/Decode.lean ====
section
/-! SUPPORT. The decoder in numbers: what its checks and fields are of the word's value, and the one lemma that
says everything `decode` can answer. -/

namespace Sys2Proof

theorem opcodeOk_iff (c : BitVec 64) : WellFormed.opcodeOk c = true ↔
    c.toNat % 16 = 1 ∨ c.toNat % 16 = 2 ∨ c.toNat % 16 = 3 := by
  simp [WellFormed.opcodeOk, ← BitVec.toNat_inj]

theorem reservedOk_iff (c : BitVec 64) : WellFormed.reservedOk c = true ↔ c.toNat / 2 ^ 20 = 0 := by
  have h := c.isLt
  simp only [WellFormed.reservedOk, decide_eq_true_eq, ← BitVec.toNat_inj, BitVec.extractLsb'_toNat,
    Nat.shiftRight_eq_div_pow, BitVec.ofNat_eq_ofNat, BitVec.toNat_ofNat]
  omega

theorem regField_val (c : BitVec 64) (lo : Nat) : (regField c lo).val = c.toNat / 2 ^ lo % 16 := by
  simp [regField, Nat.shiftRight_eq_div_pow]

/-- A word with one of the three opcodes and no reserved bit decodes to the command whose fields it holds
(30_encoding.md R47, R51). -/
theorem decode_legal (c : BitVec 64) (hop : WellFormed.opcodeOk c = true) (hrsv : WellFormed.reservedOk c = true) :
    ∃ i : Instr, decode c = .ok i ∧ i.opc.toNat = c.toNat % 16 ∧ i.rd.val = c.toNat / 2 ^ 4 % 16 ∧
      i.ra.val = c.toNat / 2 ^ 8 % 16 ∧ i.rb.val = c.toNat / 2 ^ 12 % 16 ∧ i.rp.val = c.toNat / 2 ^ 16 % 16 := by
  have h := (opcodeOk_iff c).1 hop
  have e1 : c.extractLsb' 0 4 = 0x1 ↔ c.toNat % 16 = 1 := by simp [← BitVec.toNat_inj]
  have e2 : c.extractLsb' 0 4 = 0x2 ↔ c.toNat % 16 = 2 := by simp [← BitVec.toNat_inj]
  simp only [decode, hop, hrsv, Bool.true_eq_false, if_false, e1, e2]
  by_cases h1 : c.toNat % 16 = 1
  · simp [h1, Instr.opc, Instr.rd, Instr.ra, Instr.rb, Instr.rp, regField_val]
  · by_cases h2 : c.toNat % 16 = 2
    · simp [h2, Instr.opc, Instr.rd, Instr.ra, Instr.rb, Instr.rp, regField_val]
    · have h3 : c.toNat % 16 = 3 := by omega
      simp [h3, Instr.opc, Instr.rd, Instr.ra, Instr.rb, Instr.rp, regField_val]

theorem decode_illegalOpcode (c : BitVec 64) (h : WellFormed.opcodeOk c = false) :
    decode c = .error .illegalOpcode := by
  simp [decode, h]

theorem decode_reservedBits (c : BitVec 64) (hop : WellFormed.opcodeOk c = true)
    (hrsv : WellFormed.reservedOk c = false) : decode c = .error .reservedBits := by
  simp [decode, hop, hrsv]

/-- The decoder accepts exactly the legal command words (30_encoding.md R54). -/
theorem decode_ok_iff (c : BitVec 64) : (∃ i, decode c = .ok i) ↔ WellFormed.command c = true := by
  unfold WellFormed.command
  cases hop : WellFormed.opcodeOk c
  · simp [decode_illegalOpcode c hop]
  · cases hrsv : WellFormed.reservedOk c
    · simp [decode_reservedBits c hop hrsv]
    · obtain ⟨i, h, -⟩ := decode_legal c hop hrsv
      simp [h]

/-- The opcode and the fields of a word fix the instruction. -/
theorem Instr.ext_fields {i j : Instr} (ho : i.opc = j.opc) (hd : i.rd = j.rd) (ha : i.ra = j.ra)
    (hb : i.rb = j.rb) (hp : i.rp = j.rp) : i = j := by
  cases i <;> cases j <;> simp_all [Instr.opc, Instr.rd, Instr.ra, Instr.rb, Instr.rp]

end Sys2Proof
end

