-- ==== Sys2Proof/Laws/State.lean ====
section
/-! SUPPORT. One lemma per field per update of State, and reading a W register after each update. -/

namespace Sys2Proof

namespace Machine

variable (s : State) (k : RegIdx) (i : LimbIdx) (v : Word384) (l : Limb) (r : Response) (e : DecodeError)
  (held : List Access)

@[simp] theorem writeW_inv : (s.writeW k v).inv = s.inv := rfl
@[simp] theorem writeW_err : (s.writeW k v).err = s.err := rfl
@[simp] theorem writeW_cause : (s.writeW k v).cause = s.cause := rfl
@[simp] theorem writeW_inputs : (s.writeW k v).inputs = s.inputs := rfl
@[simp] theorem writeW_responses : (s.writeW k v).responses = s.responses := rfl
@[simp] theorem writeW_draws : (s.writeW k v).draws = s.draws := rfl

@[simp] theorem readW_writeW_same : (s.writeW k v).readW k = v := by
  simp [State.readW, State.writeW]

theorem readW_writeW (j : RegIdx) : (s.writeW k v).readW j = if j = k then v else s.readW j := by
  simp only [State.readW, State.writeW, Vector.getElem_set, Fin.ext_iff, eq_comm]

@[simp] theorem readW_writeW_other {j : RegIdx} (h : j ≠ k) : (s.writeW k v).readW j = s.readW j := by
  rw [readW_writeW, if_neg h]

@[simp] theorem writeBack_eq : s.writeBack k v = s.writeW k v := rfl

@[simp] theorem latch_a (ra rb rp : RegIdx) : (s.latch ra rb rp).a = s.readW ra := rfl
@[simp] theorem latch_b (ra rb rp : RegIdx) : (s.latch ra rb rp).b = s.readW rb := rfl
@[simp] theorem latch_p (ra rb rp : RegIdx) : (s.latch ra rb rp).p = s.readW rp := rfl

@[simp] theorem writeLimb_inv : (s.writeLimb k i l).inv = s.inv := rfl
@[simp] theorem writeLimb_err : (s.writeLimb k i l).err = s.err := rfl
@[simp] theorem writeLimb_cause : (s.writeLimb k i l).cause = s.cause := rfl
@[simp] theorem writeLimb_inputs : (s.writeLimb k i l).inputs = s.inputs := rfl
@[simp] theorem writeLimb_responses : (s.writeLimb k i l).responses = s.responses := rfl
@[simp] theorem writeLimb_draws : (s.writeLimb k i l).draws = s.draws := rfl

@[simp] theorem writeInv_readW : (s.writeInv l).readW k = s.readW k := rfl
@[simp] theorem writeInv_inv : (s.writeInv l).inv = l := rfl
@[simp] theorem writeInv_err : (s.writeInv l).err = s.err := rfl
@[simp] theorem writeInv_cause : (s.writeInv l).cause = s.cause := rfl
@[simp] theorem writeInv_inputs : (s.writeInv l).inputs = s.inputs := rfl
@[simp] theorem writeInv_responses : (s.writeInv l).responses = s.responses := rfl
@[simp] theorem writeInv_draws : (s.writeInv l).draws = s.draws := rfl

@[simp] theorem respond_readW : (s.respond r).readW k = s.readW k := rfl
@[simp] theorem respond_inv : (s.respond r).inv = s.inv := rfl
@[simp] theorem respond_err : (s.respond r).err = s.err := rfl
@[simp] theorem respond_cause : (s.respond r).cause = s.cause := rfl
@[simp] theorem respond_inputs : (s.respond r).inputs = s.inputs := rfl
@[simp] theorem respond_responses : (s.respond r).responses = s.responses ++ [r] := rfl
@[simp] theorem respond_draws : (s.respond r).draws = s.draws := rfl

@[simp] theorem commandError_readW : (s.commandError e).readW k = s.readW k := by
  unfold State.commandError; split <;> rfl

@[simp] theorem commandError_inv : (s.commandError e).inv = s.inv := by
  unfold State.commandError; split <;> rfl

@[simp] theorem commandError_err : (s.commandError e).err = true := by
  unfold State.commandError; split <;> simp_all

@[simp] theorem commandError_cause :
    (s.commandError e).cause = if s.err = true then s.cause else e.code := by
  unfold State.commandError; split <;> simp_all

@[simp] theorem commandError_inputs : (s.commandError e).inputs = s.inputs := by
  unfold State.commandError; split <;> rfl

@[simp] theorem commandError_responses : (s.commandError e).responses = s.responses := by
  unfold State.commandError; split <;> rfl

@[simp] theorem commandError_draws : (s.commandError e).draws = s.draws := by
  unfold State.commandError; split <;> rfl

@[simp] theorem writeStatus_readW : (s.writeStatus l).readW k = s.readW k := by
  unfold State.writeStatus; split <;> rfl

@[simp] theorem writeStatus_inv : (s.writeStatus l).inv = s.inv := by
  unfold State.writeStatus; split <;> rfl

@[simp] theorem writeStatus_inputs : (s.writeStatus l).inputs = s.inputs := by
  unfold State.writeStatus; split <;> rfl

@[simp] theorem writeStatus_responses : (s.writeStatus l).responses = s.responses := by
  unfold State.writeStatus; split <;> rfl

@[simp] theorem writeStatus_draws : (s.writeStatus l).draws = s.draws := by
  unfold State.writeStatus; split <;> rfl

/-- Bit 0 of a word, as a number and as the vector the write to STATUS looks at. -/
theorem bitZero_eq_one_iff : l.extractLsb' 0 1 = 1 ↔ l.toNat % 2 = 1 := by
  simp [← BitVec.toNat_inj]

/-- The whole of a write to STATUS (60_exceptions.md R82). -/
theorem writeStatus_eq :
    s.writeStatus l = if l.toNat % 2 = 1 then { s with err := false, cause := 0 } else s := by
  simp only [State.writeStatus, bitZero_eq_one_iff]

theorem writeStatus_err : (s.writeStatus l).err = if l.toNat % 2 = 1 then false else s.err := by
  rw [writeStatus_eq]; split <;> rfl

theorem writeStatus_cause : (s.writeStatus l).cause = if l.toNat % 2 = 1 then 0 else s.cause := by
  rw [writeStatus_eq]; split <;> rfl

@[simp] theorem takeReset_readW : (s.takeReset held).readW k = 0 := by
  simp [State.takeReset, State.readW, State.reset]

@[simp] theorem takeReset_inv : (s.takeReset held).inv = 0 := rfl
@[simp] theorem takeReset_err : (s.takeReset held).err = false := rfl
@[simp] theorem takeReset_cause : (s.takeReset held).cause = 0 := rfl
@[simp] theorem takeReset_inputs : (s.takeReset held).inputs = s.inputs := rfl
@[simp] theorem takeReset_responses :
    (s.takeReset held).responses = s.responses ++ heldResponses held s.draws := rfl
@[simp] theorem takeReset_draws : (s.takeReset held).draws = s.draws + held.length := rfl

theorem heldResponses_length (n : Nat) : (heldResponses held n).length = held.length := by
  induction held generalizing n with
  | nil => rfl
  | cons _ rest ih => simp [heldResponses, ih]

/-- A held access that a reset ends gets an error response or is abandoned, nothing else
(70_reset_and_hazards.md R95). -/
theorem heldResponses_mem (n : Nat) {r : Response} (h : r ∈ heldResponses held n) :
    r = .busError ∨ r = .abandoned := by
  induction held generalizing n with
  | nil => simp [heldResponses] at h
  | cons _ rest ih =>
    rcases List.mem_cons.mp h with rfl | h
    · unfold heldResponse; split <;> simp
    · exact ih _ h

@[simp] theorem withCommand_inputs (c : BitVec 64) :
    (s.withCommand c).inputs = .access (commandWrite c) :: s.inputs := rfl

end Machine

end Sys2Proof
end

