-- ==== Sys2Proof/Laws/Exec.lean ====
section
/-! SUPPORT. What the three meanings do, said once: each completes, and writes one value to its destination. -/

namespace Sys2Proof

namespace Machine

/-- The value a command writes, as a function of the state before it. -/
def commandValue (i : Instr) (s : State) : Word384 :=
  match i with
  | .addmod _ ra rb rp => addModValue (s.readW ra) (s.readW rb) (s.readW rp)
  | .submod _ ra rb rp => subModValue (s.readW ra) (s.readW rb) (s.readW rp)
  | .mulmod _ ra rb rp => mulModValue (s.readW ra) (s.readW rb) (s.readW rp) s.inv

/-- Everything `exec` can answer (10_state.md R25): a next state with one register written. -/
theorem exec_eq (i : Instr) (s : State) : exec i s = .next (s.writeW i.rd (commandValue i s)) := by
  cases i <;> rfl

/-- What `issueCommand` can answer (30_encoding.md R51). -/
theorem issueCommand_ok {c : BitVec 64} {i : Instr} (h : decode c = .ok i) (s : State) :
    issueCommand c s = .next (s.writeW i.rd (commandValue i s)) := by
  simp only [issueCommand, h, exec_eq]

theorem issueCommand_error {c : BitVec 64} {e : DecodeError} (h : decode c = .error e) (s : State) :
    issueCommand c s = .next (s.commandError e) := by
  simp only [issueCommand, h]

end Machine

end Sys2Proof
end

