-- ==== Sys2Proof/Laws/Montgomery.lean ====
section
/-! SUPPORT. The accumulator of MULMOD as one sum, and the bounds of its multipliers (41_montgomery_mul.md R68,
R69). -/

namespace Sys2Proof

namespace Machine

theorem montMultiplier_le (inv acc i : Nat) : montMultiplier inv acc i ≤ 2 ^ 64 - 1 := by
  unfold montMultiplier
  omega

/-- After `n` eliminations the accumulator is the product plus a multiple of `p`. -/
theorem montAcc_eq_sum (a b p inv n : Nat) : montAcc a b p inv n =
    a * b + (∑ i ∈ Finset.range n, montMultiplier inv (montAcc a b p inv i) i * 2 ^ (64 * i)) * p := by
  induction n with
  | zero => simp [montAcc]
  | succ n ih =>
    rw [Finset.sum_range_succ, Nat.add_mul, ← Nat.add_assoc, ← ih, montAcc, montEliminate]
    ring

/-- The multipliers of `n` eliminations are the digits of a number below `2^(64*n)`. -/
theorem multiplierSum_lt (a b p inv n : Nat) :
    (∑ i ∈ Finset.range n, montMultiplier inv (montAcc a b p inv i) i * 2 ^ (64 * i)) < 2 ^ (64 * n) := by
  induction n with
  | zero => simp
  | succ n ih =>
    rw [Finset.sum_range_succ]
    have digit := Nat.mul_le_mul_right (2 ^ (64 * n)) (montMultiplier_le inv (montAcc a b p inv n) n)
    have width : 2 ^ (64 * (n + 1)) = 2 ^ 64 * 2 ^ (64 * n) := by rw [← pow_add]; congr 1; ring
    rw [width]
    omega

end Machine

end Sys2Proof
end

