-- ==== Sys2Proof/Laws/PerInstr.lean ====
section
/-! SUPPORT. Statements about every instruction as syntax, one lemma per constructor. -/

namespace Sys2Proof

namespace Laws

/-- The word of an instruction lies in the legal command space: its opcode is one of the three and its reserved
bits are 0 (30_encoding.md R54). -/
def EncodedWordIsLegal.Statement (i : Instr) : Prop := WellFormed.command (encode i) = true

/-- No register field reaches the opcode. -/
theorem fields_leave_opcode : ∀ r : RegIdx,
    (BitVec.ofNat 64 r.val <<< 4).extractLsb' 0 4 = 0 ∧ (BitVec.ofNat 64 r.val <<< 8).extractLsb' 0 4 = 0 ∧
    (BitVec.ofNat 64 r.val <<< 12).extractLsb' 0 4 = 0 ∧ (BitVec.ofNat 64 r.val <<< 16).extractLsb' 0 4 = 0 := by
  decide

/-- No register field reaches the reserved bits. -/
theorem fields_leave_reserved : ∀ r : RegIdx,
    (BitVec.ofNat 64 r.val <<< 4).extractLsb' 20 44 = 0 ∧ (BitVec.ofNat 64 r.val <<< 8).extractLsb' 20 44 = 0 ∧
    (BitVec.ofNat 64 r.val <<< 12).extractLsb' 20 44 = 0 ∧
    (BitVec.ofNat 64 r.val <<< 16).extractLsb' 20 44 = 0 := by
  decide

theorem encodeR4_opcode (o : BitVec 4) (rd ra rb rp : RegIdx) :
    (encodeR4 o rd ra rb rp).extractLsb' 0 4 = o := by
  have h : ∀ o : BitVec 4, (o.setWidth 64).extractLsb' 0 4 = o := by decide
  simp only [encodeR4, BitVec.extractLsb'_or, h, (fields_leave_opcode rd).1, (fields_leave_opcode ra).2.1,
    (fields_leave_opcode rb).2.2.1, (fields_leave_opcode rp).2.2.2]
  simp

theorem encodeR4_reserved (o : BitVec 4) (rd ra rb rp : RegIdx) :
    (encodeR4 o rd ra rb rp).extractLsb' 20 44 = 0 := by
  have h : ∀ o : BitVec 4, (o.setWidth 64).extractLsb' 20 44 = 0 := by decide
  simp only [encodeR4, BitVec.extractLsb'_or, h, (fields_leave_reserved rd).1, (fields_leave_reserved ra).2.1,
    (fields_leave_reserved rb).2.2.1, (fields_leave_reserved rp).2.2.2]
  simp

theorem EncodedWordIsLegal.addmod (rd ra rb rp : RegIdx) :
    EncodedWordIsLegal.Statement (.addmod rd ra rb rp) := by
  simp [EncodedWordIsLegal.Statement, WellFormed.command, WellFormed.opcodeOk, WellFormed.reservedOk, encode,
    encodeR4_opcode, encodeR4_reserved]

theorem EncodedWordIsLegal.submod (rd ra rb rp : RegIdx) :
    EncodedWordIsLegal.Statement (.submod rd ra rb rp) := by
  simp [EncodedWordIsLegal.Statement, WellFormed.command, WellFormed.opcodeOk, WellFormed.reservedOk, encode,
    encodeR4_opcode, encodeR4_reserved]

theorem EncodedWordIsLegal.mulmod (rd ra rb rp : RegIdx) :
    EncodedWordIsLegal.Statement (.mulmod rd ra rb rp) := by
  simp [EncodedWordIsLegal.Statement, WellFormed.command, WellFormed.opcodeOk, WellFormed.reservedOk, encode,
    encodeR4_opcode, encodeR4_reserved]

end Laws

end Sys2Proof
end

