-- ==== Sys2Proof/Laws/Port.lean ====
section
/-! SUPPORT. The map of the window, and the one lemma that says everything a step of the block can do. -/

namespace Sys2Proof

namespace Machine

/-- Reading a limb after writing one (10_state.md R15). -/
theorem limb_readW_writeLimb (s : State) (k k' : RegIdx) (i j : LimbIdx) (v : Limb) :
    limb ((s.writeLimb k i v).readW k') j.val = if k' = k ∧ j = i then v else limb (s.readW k') j.val := by
  by_cases h : k' = k
  · subst h; simp only [State.writeLimb, readW_writeW_same, limb_setLimb, true_and]
  · simp only [State.writeLimb, readW_writeW_other _ _ _ h, h, false_and, if_false]

theorem limbOffset_eq (k : RegIdx) (i : LimbIdx) : limbOffset k i = 0x400 + 0x40 * k.val + 8 * i.val := rfl

@[simp] theorem targetOf_limbOffset (k : RegIdx) (i : LimbIdx) : targetOf (limbOffset k i) = .limb k i := by
  have hk := k.isLt
  have hi := i.isLt
  have e1 : (limbOffset k i - 0x400) / slotPitch = k.val := by rw [limbOffset_eq, slotPitch]; omega
  have e2 : (limbOffset k i - 0x400) % slotPitch / 8 = i.val := by rw [limbOffset_eq, slotPitch]; omega
  have h : limbOffset k i ≥ 0x400 := by rw [limbOffset_eq]; omega
  simp only [targetOf, show limbOffset k i ≠ 0 by omega, show limbOffset k i ≠ 8 by omega,
    show limbOffset k i ≠ 0x10 by omega, show ¬ limbOffset k i < 0x400 by omega, if_false, e1, e2, hk, hi,
    and_self, dite_true]

@[simp] theorem targetOf_cmd : targetOf 0x000 = .cmd := rfl
@[simp] theorem targetOf_status : targetOf 0x008 = .status := rfl
@[simp] theorem targetOf_inv : targetOf 0x010 = .inv := rfl

/-- Only its own offset, or one inside the same word, names a limb (20_memory.md R29). -/
theorem offset_of_limb {off : Nat} {k : RegIdx} {i : LimbIdx} (h : targetOf off = .limb k i) :
    limbOffset k i = off - off % 8 ∧ off < 0x800 ∧ 0x400 ≤ off := by
  unfold targetOf at h
  split at h
  · cases h
  · split at h
    · cases h
    · split at h
      · cases h
      · split at h
        · cases h
        · simp only at h
          split at h
          · next hlt =>
            have h' := Target.limb.inj h
            have hk := congrArg Fin.val h'.1
            have hi := congrArg Fin.val h'.2
            simp only [slotPitch] at hk hi hlt
            rw [limbOffset_eq, ← hk, ← hi]
            omega
          · cases h

theorem offset_of_cmd {off : Nat} (h : targetOf off = .cmd) : off = 0 := by
  unfold targetOf at h
  repeat' split at h
  all_goals first | assumption | cases h | (simp only at h; split at h <;> cases h)

theorem offset_of_status {off : Nat} (h : targetOf off = .status) : off = 8 := by
  unfold targetOf at h
  repeat' split at h
  all_goals first | assumption | cases h | (simp only at h; split at h <;> cases h)

theorem offset_of_inv {off : Nat} (h : targetOf off = .inv) : off = 0x10 := by
  unfold targetOf at h
  repeat' split at h
  all_goals first | assumption | cases h | (simp only at h; split at h <;> cases h)

/-- The checks of a read (20_memory.md R33). -/
theorem readOk_iff (off n : Nat) : WellFormed.read off n = true ↔ n = 8 ∧ off % 8 = 0 ∧ off < 0x800 := by
  simp only [WellFormed.read, WellFormed.sizeOk, WellFormed.alignedOk, WellFormed.inWindowOk, Bool.and_eq_true,
    decide_eq_true_eq, and_assoc]
  rfl

/-- The checks of a write (20_memory.md R34). -/
theorem writeOk_iff (off n : Nat) (lanes : BitVec 8) :
    WellFormed.write off n lanes = true ↔ n = 8 ∧ lanes = 0xFF ∧ off % 8 = 0 ∧ off < 0x800 := by
  simp only [WellFormed.write, WellFormed.sizeOk, WellFormed.lanesOk, WellFormed.alignedOk, WellFormed.inWindowOk,
    Bool.and_eq_true, decide_eq_true_eq, and_assoc]
  rfl

/-- When a read breaks the access rule (20_memory.md R31). -/
theorem accessOk_read_eq_false_iff (off n : Nat) :
    Safety.accessOk (.read off n) = false ↔ n ≠ 8 ∨ off % 8 ≠ 0 ∨ 0x800 ≤ off := by
  rw [Safety.accessOk, ← Bool.not_eq_true, readOk_iff]; omega

/-- When a write breaks the access rule (20_memory.md R31). -/
theorem accessOk_write_eq_false_iff (off n : Nat) (lanes : BitVec 8) (v : Limb) :
    Safety.accessOk (.write off n lanes v) = false ↔ n ≠ 8 ∨ lanes ≠ 0xFF ∨ off % 8 ≠ 0 ∨ 0x800 ≤ off := by
  rw [Safety.accessOk, ← Bool.not_eq_true, writeOk_iff]
  simp only [not_and_or, not_lt, ne_eq]

/-- What the write of a value to a target leaves (20_memory.md R34): it always completes. -/
def written (tgt : Target) (v : Limb) (s : State) : State :=
  match tgt with
  | .cmd =>
    match decode v with
    | .ok i => s.writeW i.rd (commandValue i s)
    | .error e => s.commandError e
  | .status => s.writeStatus v
  | .inv => s.writeInv v
  | .limb k i => s.writeLimb k i v
  | .reserved => s

theorem writeTarget_eq (tgt : Target) (v : Limb) (s : State) : writeTarget tgt v s = .next (written tgt v s) := by
  cases tgt with
  | cmd =>
    simp only [writeTarget, written]
    cases h : decode v with
    | ok i => exact issueCommand_ok h s
    | error e => exact issueCommand_error h s
  | status => rfl
  | inv => rfl
  | limb k i => rfl
  | reserved => rfl

theorem memWrite_ok {off n : Nat} {lanes : BitVec 8} (h : WellFormed.write off n lanes = true) (v : Limb)
    (s : State) : memWrite off n lanes v s = .next (written (targetOf off) v s) := by
  simp only [memWrite, h, writeTarget_eq, Bool.true_eq_false, if_false]

@[simp] theorem written_inputs (tgt : Target) (v : Limb) (s : State) : (written tgt v s).inputs = s.inputs := by
  cases tgt <;> simp only [written, writeStatus_inputs, writeInv_inputs, writeLimb_inputs]
  split <;> simp

@[simp] theorem written_responses (tgt : Target) (v : Limb) (s : State) :
    (written tgt v s).responses = s.responses := by
  cases tgt <;> simp only [written, writeStatus_responses, writeInv_responses, writeLimb_responses]
  split <;> simp

@[simp] theorem written_draws (tgt : Target) (v : Limb) (s : State) : (written tgt v s).draws = s.draws := by
  cases tgt <;> simp only [written, writeStatus_draws, writeInv_draws, writeLimb_draws]
  split <;> simp

/-- Serving an access that breaks the access rule (60_exceptions.md R84). -/
theorem serveAccess_bad {a : Access} (h : Safety.accessOk a = false) (s : State) :
    serveAccess a s = .next (s.respond .busError) := by
  cases a with
  | read off n => simp only [Safety.accessOk] at h; simp [serveAccess, performAccess, State.memRead, h]
  | write off n lanes v => simp only [Safety.accessOk] at h; simp [serveAccess, performAccess, memWrite, h]

/-- Serving a read (20_memory.md R33). -/
theorem serveAccess_read {off n : Nat} (h : WellFormed.read off n = true) (s : State) :
    serveAccess (.read off n) s = .next (s.respond (.data (s.readTarget (targetOf off)))) := by
  simp [serveAccess, performAccess, State.memRead, h]

/-- Serving a write (20_memory.md R34). -/
theorem serveAccess_write {off n : Nat} {lanes : BitVec 8} (h : WellFormed.write off n lanes = true) (v : Limb)
    (s : State) :
    serveAccess (.write off n lanes v) s = .next ((written (targetOf off) v s).respond .done) := by
  simp [serveAccess, performAccess, memWrite_ok h]

/-- What a served access leaves. -/
def served (a : Access) (s : State) : State :=
  match a with
  | .read off n =>
    if WellFormed.read off n = false then s.respond .busError
    else s.respond (.data (s.readTarget (targetOf off)))
  | .write off n lanes v =>
    if WellFormed.write off n lanes = false then s.respond .busError
    else (written (targetOf off) v s).respond .done

theorem serveAccess_eq (a : Access) (s : State) : serveAccess a s = .next (served a s) := by
  cases a with
  | read off n =>
    cases h : WellFormed.read off n
    · rw [serveAccess_bad (by exact h)]; simp [served, h]
    · rw [serveAccess_read h]; simp [served, h]
  | write off n lanes v =>
    cases h : WellFormed.write off n lanes
    · rw [serveAccess_bad (by exact h)]; simp [served, h]
    · rw [serveAccess_write h]; simp [served, h]

@[simp] theorem served_inputs (a : Access) (s : State) : (served a s).inputs = s.inputs := by
  cases a <;> simp only [served] <;> split <;> simp

@[simp] theorem served_draws (a : Access) (s : State) : (served a s).draws = s.draws := by
  cases a <;> simp only [served] <;> split <;> simp

/-- The state with its oldest event taken from the port. -/
abbrev State.taken (s : State) (rest : List PortEvent) : State := { s with inputs := rest }

theorem step_idle {s : State} (h : s.inputs = []) : step s = .next s := by
  simp only [step, stepPort, h]

theorem step_reset {s : State} {held : List Access} {rest : List PortEvent} (h : s.inputs = .reset held :: rest) :
    step s = .next ((s.taken rest).takeReset held) := by
  simp only [step, stepPort, h, serveEvent]

theorem step_access {s : State} {a : Access} {rest : List PortEvent} (h : s.inputs = .access a :: rest) :
    step s = .next (served a (s.taken rest)) := by
  simp only [step, stepPort, h, serveEvent, serveAccess_eq]

/-- A step that serves a command word (30_encoding.md R51): the command's value is in its destination, or the error
is recorded, and the write is answered. -/
theorem step_command {s : State} {c : BitVec 64} {rest : List PortEvent}
    (h : s.inputs = .access (commandWrite c) :: rest) :
    step s = .next ((written .cmd c (s.taken rest)).respond .done) := by
  rw [step_access h]; rfl

/-- A step that serves a well-formed write (20_memory.md R34). -/
theorem step_write {s : State} {off : Nat} {v : Limb} {rest : List PortEvent}
    (h : s.inputs = .access (.write off 8 0xFF v) :: rest) (ha : off % 8 = 0) (hw : off < 0x800) :
    step s = .next ((written (targetOf off) v (s.taken rest)).respond .done) := by
  rw [step_access h]
  simp only [served, (writeOk_iff off 8 0xFF).2 ⟨rfl, rfl, ha, hw⟩, Bool.true_eq_false, if_false]

/-- A step that serves a write of one limb (20_memory.md R34). -/
theorem step_storeLimb {s : State} {k : RegIdx} {i : LimbIdx} {v : Limb} {rest : List PortEvent}
    (h : s.inputs = .access (.write (limbOffset k i) 8 0xFF v) :: rest) :
    step s = .next (((s.taken rest).writeLimb k i v).respond .done) := by
  have hk := k.isLt
  have hi := i.isLt
  rw [step_write h (by rw [limbOffset_eq]; omega) (by rw [limbOffset_eq]; omega), targetOf_limbOffset]; rfl

/-- A step that serves a well-formed read (20_memory.md R33). -/
theorem step_read {s : State} {off : Nat} {rest : List PortEvent} (h : s.inputs = .access (.read off 8) :: rest)
    (ha : off % 8 = 0) (hw : off < 0x800) :
    step s = .next ((s.taken rest).respond (.data (s.readTarget (targetOf off)))) := by
  rw [step_access h]
  simp only [served, (readOk_iff off 8).2 ⟨rfl, ha, hw⟩, Bool.true_eq_false, if_false]
  rfl

/-- A step that serves an access which breaks the access rule (60_exceptions.md R84). -/
theorem step_busError {s : State} {a : Access} {rest : List PortEvent} (h : s.inputs = .access a :: rest)
    (ha : Safety.accessOk a = false) : step s = .next ((s.taken rest).respond .busError) := by
  simp only [step, stepPort, h, serveEvent, serveAccess_bad ha]

/-- One step of a run. -/
theorem run_succ {s t : State} (h : step s = .next t) (n : Nat) :
    Host.Core.run Sys2Proof.core (n + 1) s = Host.Core.run Sys2Proof.core n t := by
  have h' : Sys2Proof.core.step s = .next t := h
  simp only [Host.Core.run, h']

/-- Everything a step can do: nothing, a reset, an access turned away, a read, or a write. -/
theorem step_cases {s t : State} (h : step s = .next t) :
    (s.inputs = [] ∧ t = s) ∨
    (∃ held rest, s.inputs = .reset held :: rest ∧ t = (s.taken rest).takeReset held) ∨
    (∃ a rest, s.inputs = .access a :: rest ∧ Safety.accessOk a = false ∧
      t = (s.taken rest).respond .busError) ∨
    (∃ off rest, s.inputs = .access (.read off 8) :: rest ∧ off % 8 = 0 ∧ off < 0x800 ∧
      t = (s.taken rest).respond (.data (s.readTarget (targetOf off)))) ∨
    (∃ off v rest, s.inputs = .access (.write off 8 0xFF v) :: rest ∧ off % 8 = 0 ∧ off < 0x800 ∧
      t = (written (targetOf off) v (s.taken rest)).respond .done) := by
  match hi : s.inputs with
  | [] =>
    rw [step_idle hi] at h
    exact .inl ⟨rfl, (Host.Outcome.next.inj h).symm⟩
  | .reset held :: rest =>
    rw [step_reset hi] at h
    exact .inr (.inl ⟨held, rest, rfl, (Host.Outcome.next.inj h).symm⟩)
  | .access a :: rest =>
    rw [step_access hi] at h
    have ht := (Host.Outcome.next.inj h).symm
    cases a with
    | read off n =>
      cases hok : WellFormed.read off n
      · exact .inr (.inr (.inl ⟨_, rest, rfl, hok, by simpa [served, hok] using ht⟩))
      · obtain ⟨rfl, h2, h3⟩ := (readOk_iff off n).1 hok
        refine .inr (.inr (.inr (.inl ⟨off, rest, rfl, h2, h3, ?_⟩)))
        rw [ht]; simp only [served, hok, Bool.true_eq_false, if_false]; rfl
    | write off n lanes v =>
      cases hok : WellFormed.write off n lanes
      · exact .inr (.inr (.inl ⟨_, rest, rfl, hok, by simpa [served, hok] using ht⟩))
      · obtain ⟨rfl, rfl, h3, h4⟩ := (writeOk_iff off n lanes).1 hok
        refine .inr (.inr (.inr (.inr ⟨off, v, rest, rfl, h3, h4, ?_⟩)))
        rw [ht]; simp only [served, hok, Bool.true_eq_false, if_false]

end Machine

end Sys2Proof
end

