-- ==== Sys2Proof/Tests/Slice0.lean ====
section
/-! SUPPORT. Tests of single steps against the vectors of 95_test_vectors.md, the ill-formed terms that the checks
refuse, and for each statement with hypotheses a witness that meets them. -/

namespace Sys2Proof

namespace Tests

open Machine Safety

set_option exponentiation.threshold 800

/-! ## Values of 95_test_vectors.md section 2.1 -/

/-- BLS_P. -/
def blsP : Word384 := 0x1a0111ea397fe69a4b1ba7b6434bacd764774b84f38512bf6730d2a0f6b0f6241eabfffeb153ffffb9feffffffffaaab
/-- P384. -/
def p384 : Word384 := 0xfffffffffffffffffffffffffffffffffffffffffffffffffffffffffffffffeffffffff0000000000000000ffffffff
/-- X. -/
def valX : Word384 := 0x0fb57d25c4a334bfc6cd75e9bb049a79d7a7a3cc8c3d5f169293de8fc88b28756bad6be28e7aa6e99f19950499dd251d
/-- Y. -/
def valY : Word384 := 0x03233d27d11745ad498893101c593af514aa4e719d3c7dec00a61f933d6c51e370eb9a0a96263ae6c5e818fac0433cbd
/-- A2. -/
def valA2 : Word384 := 0xa268aa872607679d6050914a9d33a01c353c631cdfd43f371200339d068739fa9d1de2a05d158a2ff2ee4e4519f9919c
/-- B2. -/
def valB2 : Word384 := 0xfa529ba3fe3bfada7cf20724d953ee261d87cec31f7296ab7961fd925d39d0a89a2ef80f58ee8571f4998d7c4093f6de
/-- The INV of BLS_P. -/
def blsInv : Limb := 0x89f3fffcfffcfffd

/-- The state a row of sections 2.2 to 2.4 starts from: `W2 = a`, `W3 = b`, `W1 = p`, INV, the rest at reset. -/
def rowState (a b p : Word384) (inv : Limb) : State :=
  (((State.reset.writeInv inv).writeW 1 p).writeW 2 a).writeW 3 b

/-- `W4` and STATUS after one step with the word written to CMD. -/
def afterCommand (c : BitVec 64) (s : State) : Option (Word384 × Limb) :=
  match step (s.withCommand c) with
  | .next t => some (t.readW 4, statusWord t.err t.cause)
  | _ => none

/-- The state with the accesses waiting at the port. -/
def waiting (s : State) (es : List PortEvent) : State := { s with inputs := es }

/-! ## The commands (95_test_vectors.md sections 2.2 to 2.4) -/

theorem test_addmod_carry_out_VA7 :
    afterCommand 0x13241 (rowState (p384 - 1) (p384 - 1) p384 0) = some (p384 - 2, 0) := by decide +kernel

theorem test_addmod_outside_VA12 :
    afterCommand 0x13241 (rowState (BitVec.allOnes 384) (BitVec.allOnes 384) 1 0)
      = some (0xfffffffffffffffffffffffffffffffffffffffffffffffffffffffffffffffffffffffffffffffffffffffffffffffd, 0) := by
  decide +kernel

theorem test_submod_borrow_VS5 :
    afterCommand 0x13242 (rowState valY valX blsP 0)
      = some (0x0d6ed1ec45f3f787cdd6c4dca4a04d52a179f62a04843194d54313a46b921f9223ea2e26b8ff93fce0cd83f62665c24b, 0) := by
  decide +kernel

theorem test_submod_outside_VS10 :
    afterCommand 0x13242 (rowState 0 (BitVec.allOnes 384) blsP 0) = some (blsP + 1, 0) := by decide +kernel

theorem test_mulmod_wide_VM10 :
    afterCommand 0x13243 (rowState valA2 valB2 p384 0x0000000100000001)
      = some (0x8a21b263d20467b07a67314c836669ce36281e449cbd1f09b678620c9b166ac04a76eb5831d31a98ec35035b7d238317, 0) := by
  decide +kernel

theorem test_mulmod_even_modulus_VM15 :
    afterCommand 0x13243 (rowState valX valY (blsP - 1) blsInv)
      = some (0x103c177d100d026299c50344d10ba036971c96b1a10261d6cf31e14dbe46b7aec0618ec55209b2aad83422996cd98784, 0) := by
  decide +kernel

/-- The multiplier's schedule on VM14 of section 2.4. -/
theorem test_mulDatapath_VM14 :
    mulDatapath (BitVec.allOnes 384) (BitVec.allOnes 384) blsP blsInv
      = 0xfafdb517af7b264fa242bc70f903a6b3b3205f8f65237b29cd0dd6d81de477a4613512762744fafc3ad48259380b9d73 := by
  decide +kernel

/-- The adder's datapath on VA10 of section 2.2. -/
theorem test_addDatapath_VA10 :
    addDatapath (BitVec.allOnes 384) 1 blsP
      = 0xe5feee15c6801965b4e45849bcb453289b88b47b0c7aed4098cf2d5f094f09dbe15400014eac00004601000000005555 := by
  decide +kernel

/-- The subtractor's datapath on VS11 of section 2.3. -/
theorem test_subDatapath_VS11 : subDatapath 1 2 0 = BitVec.allOnes 384 := by decide +kernel

/-! ## Decoding (30_encoding.md R47, R50: the words are put together by hand from the format) -/

theorem test_decode_addmod : decode 0b0001_0011_0010_0100_0001 = .ok (.addmod 4 2 3 1) := by decide
theorem test_decode_submod : decode 0b0011_0010_0001_0000_0010 = .ok (.submod 0 1 2 3) := by decide
theorem test_decode_mulmod : decode 0b1100_1101_1110_1111_0011 = .ok (.mulmod 15 14 13 12) := by decide
theorem test_encode_mulmod : encode (.mulmod 15 14 13 12) = 0xcdef3 := by decide
theorem test_decodeTableWord_addmod : decodeTableWord 64 0x1 = some (.addmod 0 0 0 0) := by decide
theorem test_decodeTableWord_illegal : decodeTableWord 64 0x0 = none := by decide

/-- The word placed by withFetchWord runs (95_test_vectors.md section 2.5: `0x1` is legal and leaves STATUS 0). -/
theorem test_withFetchWord_runs :
    ∃ t, step (State.reset.withFetchWord 64 0x1) = .next t ∧ t.responses = [.done] ∧ t.err = false :=
  ⟨_, rfl, by decide, by decide⟩

/-! ## Ill-formed terms are refused -/

theorem test_refuses_size : WellFormed.sizeOk 4 = false := by decide
theorem test_refuses_misaligned : WellFormed.alignedOk 0x404 = false := by decide
theorem test_refuses_outside_window : WellFormed.inWindowOk 0x800 = false := by decide
theorem test_refuses_partial_lanes : WellFormed.lanesOk 0x0F = false := by decide
theorem test_refuses_opcode : WellFormed.opcodeOk 0xF = false := by decide
theorem test_refuses_reserved_bit : WellFormed.reservedOk 0x100001 = false := by decide
theorem test_refuses_read : WellFormed.read 0x404 8 = false := by decide
theorem test_refuses_write : WellFormed.write 0x010 4 0xFF = false := by decide
theorem test_refuses_command : WellFormed.command 0x8000000000000000 = false := by decide

/-! ## Errors and host accesses (95_test_vectors.md sections 2.5 and 2.6) -/

/-- Reserved bit 20 while STATUS = 0x11: the first cause is kept. -/
theorem test_first_cause_kept :
    afterCommand 0x113241 { State.reset with err := true, cause := 1 } = some (0, 0x11) := by decide +kernel

/-- Reserved bit 63 set. -/
theorem test_reserved_bit_recorded : afterCommand 0x8000000000000003 State.reset = some (0, 0x21) := by
  decide +kernel

/-- `st 0x7e8, 0x5` leaves `W15 = 5 * 2^320`. -/
theorem test_store_last_limb :
    ∃ t, step (waiting State.reset [.access (hostStore 0x7e8 5)]) = .next t ∧
      (t.readW 15).toNat = 5 * 2 ^ 320 ∧ t.responses = [.done] :=
  ⟨_, rfl, by decide +kernel, by decide⟩

/-- `ld 0x4e8` with `W3 = X`. -/
theorem test_load_limb :
    (State.reset.writeW 3 valX).memRead 0x4e8 8 = .ok 0x0fb57d25c4a334bf := by decide +kernel

/-- A 4-byte write to CMD: bus error, STATUS unchanged, and the block goes on. -/
theorem test_narrow_command_is_a_bus_error :
    ∃ t, step (waiting State.reset [.access (.write 0 4 0x0F 0)]) = .next t ∧
      t.responses = [.busError] ∧ t.err = false :=
  ⟨_, rfl, by decide, by decide⟩

/-- `st 0x008, 0xfffffffffffffffe` with STATUS = 0x11 changes nothing. -/
theorem test_status_write_without_bit_zero :
    (State.writeStatus { State.reset with err := true, cause := 1 } 0xfffffffffffffffe).err = true := by decide

/-! ## Witnesses: for each statement with hypotheses, values that meet them -/

theorem witness_decodeAndEncode : decode (0xffff3 : BitVec 64) = .ok (.mulmod 15 15 15 15) := by decide

theorem witness_legalCommandSpace : ∀ i, decode (0x100003 : BitVec 64) ≠ .ok i := by
  intro i h
  have e : decode (0x100003 : BitVec 64) = .error .reservedBits := by decide
  rw [e] at h
  cases h

theorem witness_noRegisterContents :
    (State.reset.withCommand (encode (.submod 1 2 3 1))).inputs
      = .access (commandWrite (encode (.submod 1 2 3 1))) :: [] := rfl

theorem witness_exactResidue : AddSubPre (p384 - 1) (p384 - 1) p384 ∧ ¬ AddSubPre valX valY 0 := by decide +kernel

theorem witness_addSubLaws : AddSubPre 0 0 1 ∧ AddSubPre (p384 - 1) 0 p384 := by decide +kernel

theorem witness_inPlaceAddition :
    (2 : RegIdx) ≠ 3 ∧ (2 : RegIdx) ≠ 1 ∧
      AddSubPre ((rowState valX valY blsP 0).readW 2) ((rowState valX valY blsP 0).readW 3)
        ((rowState valX valY blsP 0).readW 1) := by
  decide +kernel

theorem witness_montgomeryProduct :
    MulPre ((rowState valX valY blsP blsInv).readW 2) ((rowState valX valY blsP blsInv).readW 3)
      ((rowState valX valY blsP blsInv).readW 1) (rowState valX valY blsP blsInv).inv := by
  decide +kernel

theorem witness_montgomeryDomain :
    (Modulus blsP ∧ blsP.toNat % 2 = 1 ∧ InverseOk blsInv blsP ∧ Reduced valX blsP ∧ Reduced valY blsP) ∧
    (Modulus 1 ∧ InverseOk 0xffffffffffffffff 1 ∧ Reduced 0 1) := by
  decide +kernel

/-- `a = b = p = 1` with a correct INV reaches `u = p` exactly. -/
theorem witness_mulmodCorner :
    montShifted 1 1 1 0xffffffffffffffff = 1 ∧ MulPre 0 (blsP - 1) blsP blsInv ∧ MulPre 1 1 blsP blsInv := by
  decide +kernel

/-- A host write to a source, to the modulus, and to the destination itself. -/
theorem witness_reissuedCommand :
    (∀ k ∈ [(2 : RegIdx), 1, 4],
      (waiting State.reset [.access (commandWrite (encode (.mulmod 4 2 3 1))), .access (hostStore (limbOffset k 5) 7),
        .access (commandWrite (encode (.mulmod 4 2 3 1)))]).inputs
        = .access (commandWrite (encode (.mulmod 4 2 3 1))) :: .access (.write (limbOffset k 5) 8 0xFF 7)
          :: .access (commandWrite (encode (.mulmod 4 2 3 1))) :: []) ∧
    (2 : RegIdx) ≠ (Instr.mulmod 4 2 3 1).rd :=
  ⟨fun _ _ => rfl, by decide⟩

theorem witness_commandWriteSet :
    decode (0xffff1 : BitVec 64) = .ok (.addmod 15 15 15 15) ∧
    decode (0 : BitVec 64) = .error .illegalOpcode ∧ decode (0x100002 : BitVec 64) = .error .reservedBits := by
  decide

/-- The bytes on both sides of the first and the last register's slot. -/
theorem witness_windowBytes :
    (∃ t, exec (.addmod 15 0 0 0) State.reset = .next t) ∧
    (0x7bf < slotOffset 15 ∨ slotOffset 15 + 48 ≤ 0x7bf) ∧ (0x7f0 < slotOffset 15 ∨ slotOffset 15 + 48 ≤ 0x7f0) ∧
    (0x3ff < slotOffset 0 ∨ slotOffset 0 + 48 ≤ 0x3ff) ∧ (0x430 < slotOffset 0 ∨ slotOffset 0 + 48 ≤ 0x430) :=
  ⟨⟨_, rfl⟩, by decide, by decide, by decide, by decide⟩

theorem witness_invChanges :
    (∃ t, step (waiting State.reset [.access (hostStore 0x010 1)]) = .next t ∧ t.inv ≠ State.reset.inv) ∧
    (∃ t, step (waiting (State.reset.writeInv 1) [.reset []]) = .next t ∧ t.inv ≠ (State.reset.writeInv 1).inv) ∧
    (∃ t, exec (.addmod 0 1 2 3) State.reset = .next t) ∧ (∃ t, exec (.submod 0 1 2 3) State.reset = .next t) :=
  ⟨⟨_, rfl, by decide⟩, ⟨_, rfl, by decide⟩, ⟨_, rfl⟩, ⟨_, rfl⟩⟩

theorem witness_wChanges :
    (∃ t, step ((rowState 1 1 blsP 0).withCommand 0x13241) = .next t ∧
      t.readW 4 ≠ ((rowState 1 1 blsP 0).withCommand 0x13241).readW 4) ∧
    (∃ t, step (waiting State.reset [.access (hostStore (limbOffset 15 5) 1)]) = .next t ∧
      t.readW 15 ≠ State.reset.readW 15) ∧
    (∃ t, step (waiting (State.reset.writeW 0 1) [.reset []]) = .next t ∧
      t.readW 0 ≠ (State.reset.writeW 0 1).readW 0) :=
  ⟨⟨_, rfl, by decide +kernel⟩, ⟨_, rfl, by decide +kernel⟩, ⟨_, rfl, by decide +kernel⟩⟩

theorem witness_stepRunsCommand :
    (State.reset.withCommand 0x13241).inputs = .access (commandWrite 0x13241) :: [] ∧
    decode (0x13241 : BitVec 64) = .ok (.addmod 4 2 3 1) ∧ decodeTableWord 64 0x13241 = some (.addmod 4 2 3 1) :=
  ⟨rfl, by decide, by decide⟩

/-- One word for each clause, at the edges: opcodes 0, 4 and 15, reserved bits 20 and 63, all fields 15. -/
theorem witness_commandWords :
    (∀ c ∈ [(0 : BitVec 64), 4, 0xf, 0x8000000000000000],
      ¬ (c.toNat % 16 = 1 ∨ c.toNat % 16 = 2 ∨ c.toNat % 16 = 3)) ∧
    (∀ c ∈ [(0x100001 : BitVec 64), 0x8000000000000003],
      (c.toNat % 16 = 1 ∨ c.toNat % 16 = 2 ∨ c.toNat % 16 = 3) ∧ c.toNat / 2 ^ 20 ≠ 0) ∧
    (∀ c ∈ [(0x1 : BitVec 64), 0xffff3],
      (c.toNat % 16 = 1 ∨ c.toNat % 16 = 2 ∨ c.toNat % 16 = 3) ∧ c.toNat / 2 ^ 20 = 0) ∧
    (State.reset.withCommand 0).inputs = .access (commandWrite 0) :: [] :=
  ⟨by simp, by simp, by simp, rfl⟩

theorem witness_errBlocksNothing :
    (State.reset.commandError .illegalOpcode).err = true ∧
    decode (0x100001 : BitVec 64) = .error .reservedBits := by
  decide

theorem witness_errorsCleared :
    (∃ t, step (waiting (State.reset.commandError .illegalOpcode) [.access (hostStore 0x008 1)]) = .next t ∧
      (State.reset.commandError .illegalOpcode).err = true ∧ t.err = false) ∧
    (∃ t, step (waiting (State.reset.commandError .reservedBits) [.reset []]) = .next t ∧
      (State.reset.commandError .reservedBits).cause ≠ 0 ∧ t.cause = 0) :=
  ⟨⟨_, rfl, by decide, by decide⟩, ⟨_, rfl, by decide, by decide⟩⟩

/-- The last limb of the window and the last padding word read. -/
theorem witness_hostRead :
    (waiting State.reset [.access (.read 0x7f8 8)]).inputs = .access (.read 0x7f8 8) :: [] ∧
    State.reset.memRead 0x7f8 8 = .ok 0 ∧ State.reset.memRead 0x7e8 8 = .ok 0 :=
  ⟨rfl, by decide, by decide⟩

/-- One offset for each clause of the write, at the edges of its range. -/
theorem witness_hostWrite :
    (0x7e8 : Nat) = 0x400 + 0x40 * (15 : RegIdx).val + 8 * (5 : LimbIdx).val ∧
    (0x400 : Nat) = 0x400 + 0x40 * (0 : RegIdx).val + 8 * (0 : LimbIdx).val ∧
    (∀ off ∈ [0x000, 0x008, 0x010, 0x018, 0x3f8, 0x400, 0x428, 0x430, 0x7e8, 0x7f8],
      off % 8 = 0 ∧ off < 0x800) ∧
    (∀ off ∈ [0x018, 0x3f8, 0x430, 0x438, 0x7f0, 0x7f8],
      (0x018 ≤ off ∧ off < 0x400) ∨ (0x400 ≤ off ∧ 0x30 ≤ (off - 0x400) % 0x40)) ∧
    ((4 : Nat) ≠ 8 ∨ (0xFF : BitVec 8) ≠ 0xFF ∨ 0x010 % 8 ≠ 0 ∨ 0x800 ≤ 0x010) := by
  decide

theorem witness_reservedOffsets :
    (∀ off ∈ [0x018, 0x3f8, 0x430, 0x7f8], off % 8 = 0 ∧ off < 0x800 ∧
      ((0x018 ≤ off ∧ off < 0x400) ∨ (0x400 ≤ off ∧ 0x30 ≤ (off - 0x400) % 0x40))) ∧
    (waiting State.reset [.access (.read 0x018 8)]).inputs = .access (.read 0x018 8) :: [] ∧
    (waiting State.reset [.access (hostStore 0x7f8 5)]).inputs = .access (.write 0x7f8 8 0xFF 5) :: [] :=
  ⟨by decide, rfl, rfl⟩

theorem witness_busError :
    (waiting State.reset [.access (.read 0x404 8)]).inputs = .access (.read 0x404 8) :: [] ∧
    ((8 : Nat) ≠ 8 ∨ 0x404 % 8 ≠ 0 ∨ 0x800 ≤ 0x404) ∧ ((8 : Nat) ≠ 8 ∨ 0x800 % 8 ≠ 0 ∨ 0x800 ≤ 0x800) ∧
    ((8 : Nat) ≠ 8 ∨ (0xFE : BitVec 8) ≠ 0xFF ∨ 0x010 % 8 ≠ 0 ∨ 0x800 ≤ 0x010) ∧
    ¬ ((8 : Nat) ≠ 8 ∨ 0x7f8 % 8 ≠ 0 ∨ 0x800 ≤ 0x7f8) ∧
    ¬ ((8 : Nat) ≠ 8 ∨ (0xFF : BitVec 8) ≠ 0xFF ∨ 0 % 8 ≠ 0 ∨ 0x800 ≤ 0) :=
  ⟨rfl, by decide, by decide, by decide, by decide, by decide⟩

theorem witness_errorPriority :
    ((waiting State.reset [.access (.write 0 4 0xFF 0)]).inputs = .access (.write 0 4 0xFF 0) :: [] ∧
      ((4 : Nat) ≠ 8 ∨ (0xFF : BitVec 8) ≠ 0xFF)) ∧
    (¬ ((0x8000000000000000 : BitVec 64).toNat % 16 = 1 ∨ (0x8000000000000000 : BitVec 64).toNat % 16 = 2 ∨
      (0x8000000000000000 : BitVec 64).toNat % 16 = 3) ∧ (0x8000000000000000 : BitVec 64).toNat / 2 ^ 20 ≠ 0) ∧
    (∃ t, step (waiting State.reset [.access (.read 0x404 8)]) = .next t ∧
      t.responses = State.reset.responses ++ [.busError]) ∧
    (∃ t, step (State.reset.withCommand 0) = .next t ∧ t.responses = State.reset.responses ++ [.done] ∧
      ¬ (t.err = State.reset.err ∧ t.cause = State.reset.cause)) :=
  ⟨⟨rfl, by decide⟩, by decide, ⟨_, rfl, by decide⟩, ⟨_, rfl, by decide, by decide⟩⟩

theorem witness_sideEffects :
    (∃ t, Host.Core.run core 2 (waiting State.reset [.access (.read 0x400 8), .access (.read 0x400 8)]) = .next t) ∧
    (1 : Limb).toNat % 2 = 1 :=
  ⟨⟨_, rfl⟩, by decide⟩

theorem witness_littleEndian : (47 : Nat) < 48 ∧ (7 : Nat) < 8 ∧ State.reset.memRead 0x7f8 8 = .ok 0 := by decide

theorem witness_limbOffsets :
    targetOf 0x7e8 = .limb 15 5 ∧ 0x7e8 % 8 = 0 ∧ targetOf 0x400 = .limb 0 0 := by decide

/-- The last byte of the window, wherever the platform puts it. -/
theorem witness_windowOffset : Config.windowOffset (Config.base + 0x7ff) = some 0x7ff := by
  simp [Config.windowOffset, Config.windowSize]

theorem witness_resetAbandons :
    (waiting State.reset [.reset [commandWrite 0x13241, hostLoad 0x400]]).inputs
      = .reset [commandWrite 0x13241, hostLoad 0x400] :: [] := rfl

theorem witness_statusInvariant :
    State.reset.StatusInv ∧ (State.reset.commandError .reservedBits).StatusInv ∧
    ∃ t, step (State.reset.withCommand 0) = .next t :=
  ⟨by decide, by decide, ⟨_, rfl⟩⟩

theorem witness_everyAccessIsServed :
    State.reset.inputs = [] ∧ (State.reset.withCommand 0).inputs = .access (commandWrite 0) :: [] := ⟨rfl, rfl⟩

/-- The strict view stops on an access that breaks each condition of R31, at its edge, and goes on otherwise. -/
theorem witness_strictStep :
    (∀ a ∈ [Access.read 0x404 8, .read 0x400 4, .read 0x800 8, .write 0x010 8 0x7F 0, .write 0x7f9 8 0xFF 0],
      strictStep (waiting State.reset [.access a]) = .fault .busError) ∧
    (∃ t, step (waiting State.reset [.access (.read 0x800 8)]) = .next t ∧
      t.responses = State.reset.responses ++ [.busError]) ∧
    strictStep (waiting State.reset [.access (.read 0x7f8 8)]) ≠ .fault .busError ∧
    strictStep State.reset ≠ .fault .busError := by
  refine ⟨by simp [strictStep, waiting, accessOk, WellFormed.read, WellFormed.write, WellFormed.sizeOk,
    WellFormed.alignedOk, WellFormed.inWindowOk, WellFormed.lanesOk, Config.windowSize], ⟨_, rfl, by decide⟩, ?_, ?_⟩
  all_goals
    intro h
    cases h

end Tests

end Sys2Proof
end

section
/-! The invariant of STATUS over a step (10_state.md R27), and what a command writes (10_state.md R25). -/

namespace Sys2Proof

namespace Machine

open Safety

/-- A decode error records one of the two causes of 60_exceptions.md R78, so never 0 and never a code above 2. -/
theorem decodeError_code (e : DecodeError) : e.code = 1 ∨ e.code = 2 := by
  cases e with
  | illegalOpcode => exact .inl rfl
  | reservedBits => exact .inr rfl

/-- The invariant looks at ERR and CAUSE and at nothing else of the state. -/
theorem statusInv_congr {s t : State} (he : t.err = s.err) (hc : t.cause = s.cause) :
    t.StatusInv ↔ s.StatusInv := by
  rw [State.StatusInv, he, hc]

/-- ERR and CAUSE both 0 meet the invariant. -/
theorem statusInv_of_clear {s : State} (he : s.err = false) (hc : s.cause = 0) : s.StatusInv := by
  simp [State.StatusInv, he, hc]

/-- A command error keeps the cause it finds when ERR is set, and records a cause that is not 0 otherwise
(60_exceptions.md R81). -/
theorem commandError_statusInv {s : State} (h : s.StatusInv) (e : DecodeError) : (s.commandError e).StatusInv := by
  cases he : s.err with
  | true => exact (statusInv_congr (by simp [he]) (by simp [he])).2 h
  | false => rcases decodeError_code e with hc | hc <;> simp [State.StatusInv, he, hc]

/-- A write to STATUS clears ERR and CAUSE together or leaves both (60_exceptions.md R82). -/
theorem writeStatus_statusInv {s : State} (h : s.StatusInv) (v : Limb) : (s.writeStatus v).StatusInv := by
  by_cases hv : v.toNat % 2 = 1
  · exact statusInv_of_clear (by rw [writeStatus_err, if_pos hv]) (by rw [writeStatus_cause, if_pos hv])
  · exact (statusInv_congr (by rw [writeStatus_err, if_neg hv]) (by rw [writeStatus_cause, if_neg hv])).2 h

/-- Of all targets only CMD, by a command error, and STATUS touch ERR and CAUSE. -/
theorem written_statusInv {s : State} (h : s.StatusInv) (tgt : Target) (v : Limb) :
    (written tgt v s).StatusInv := by
  cases tgt with
  | cmd =>
    cases hd : decode v with
    | ok i => simpa only [written, hd] using (statusInv_congr (writeW_err ..) (writeW_cause ..)).2 h
    | error e => simpa only [written, hd] using commandError_statusInv h e
  | status => exact writeStatus_statusInv h v
  | inv => exact h
  | limb k i => exact h
  | reserved => exact h

/-- A step keeps the invariant (10_state.md R27): a reset clears STATUS, a write is `written_statusInv`, and every
other step leaves ERR and CAUSE. -/
theorem step_statusInv {s t : State} (h : s.StatusInv) (hs : step s = .next t) : t.StatusInv := by
  obtain ⟨-, rfl⟩ | ⟨held, rest, -, rfl⟩ | ⟨a, rest, -, -, rfl⟩ | ⟨off, rest, -, -, -, rfl⟩ |
    ⟨off, v, rest, -, -, -, rfl⟩ := step_cases hs
  · exact h
  · exact statusInv_of_clear (takeReset_err ..) (takeReset_cause ..)
  · exact (statusInv_congr (respond_err ..) (respond_cause ..)).2 h
  · exact (statusInv_congr (respond_err ..) (respond_cause ..)).2 h
  · have htaken : (s.taken rest).StatusInv := h
    exact (statusInv_congr (respond_err ..) (respond_cause ..)).2 (written_statusInv htaken (targetOf off) v)

/-- A read of STATUS is performed in every state (20_memory.md R33). -/
theorem memRead_status (s : State) : s.memRead 0x008 8 = .ok (statusWord s.err s.cause) := by
  have hok : WellFormed.read 0x008 8 = true := (readOk_iff _ _).2 (by decide)
  simp only [State.memRead, hok, Bool.true_eq_false, if_false, targetOf_status, State.readTarget]

/-- STATUS as a number: CAUSE above three bits of 0 above ERR (10_state.md R17). -/
theorem toNat_statusWord (err : Bool) (cause : BitVec 4) :
    (statusWord err cause).toNat = 16 * cause.toNat + err.toNat := by
  have hc := cause.isLt
  have he := err.toNat_lt
  rw [statusWord, BitVec.toNat_setWidth, BitVec.toNat_append, BitVec.toNat_append, BitVec.toNat_ofBool,
    ← Nat.shiftLeft_add_eq_or_of_lt (BitVec.isLt _), ← Nat.shiftLeft_add_eq_or_of_lt he]
  simp only [Nat.shiftLeft_eq, BitVec.toNat_ofNat]
  omega

/-- The reserved bits of STATUS, 3:1 and 63:8, are 0 (10_state.md R17, R27). -/
theorem statusWord_reserved (err : Bool) (cause : BitVec 4) :
    (statusWord err cause).extractLsb' 1 3 = 0 ∧ (statusWord err cause).extractLsb' 8 56 = 0 := by
  have hc := cause.isLt
  have he := err.toNat_lt
  simp only [← BitVec.toNat_inj, BitVec.extractLsb'_toNat, toNat_statusWord, Nat.shiftRight_eq_div_pow,
    BitVec.ofNat_eq_ofNat, BitVec.toNat_ofNat]
  omega

/-- Settles O42: the invariant by the cases of a step, the reserved bits by the value of the STATUS word. -/
theorem stepKeepsTheStatusInvariant : Obligations.StepKeepsTheStatusInvariant :=
  ⟨fun _ _ => step_statusInv, fun _ t _ => ⟨_, memRead_status t, statusWord_reserved t.err t.cause⟩⟩

/-- A write to a W register changes that register only (10_state.md R25). -/
theorem writeW_onlyWChanges (s : State) (k : RegIdx) (v : Word384) : OnlyWChanges k s (s.writeW k v) :=
  ⟨fun _ h => readW_writeW_other s k v h, rfl, rfl, rfl, rfl, rfl, rfl⟩

/-- Settles O22: a word that decodes writes its command's value, by `issueCommand_ok`; any other word records its
command error, by `issueCommand_error`. -/
theorem commandWriteSet : Obligations.CommandWriteSet := by
  intro c s
  constructor
  · intro i h
    exact ⟨commandValue i s, issueCommand_ok h s, writeW_onlyWChanges .., readW_writeW_same ..⟩
  · intro e h
    exact ⟨s.commandError e, issueCommand_error h s, fun k => commandError_readW s k e, commandError_inv ..,
      commandError_inputs .., commandError_responses .., commandError_draws ..⟩

end Machine

end Sys2Proof
end

section
/-! What a host read returns and a host write stores, at every offset of the window (20_memory.md R32 to R36). -/

namespace Sys2Proof

namespace Machine

open Safety

/-! ## The offsets of the window -/

/-- The reserved offsets below the slots, and the padding of each slot (20_memory.md R29, R32). -/
def ReservedOffset (off : Nat) : Prop :=
  (0x018 ≤ off ∧ off < 0x400) ∨ (0x400 ≤ off ∧ 0x30 ≤ (off - 0x400) % 0x40)

/-- No register's offset is reserved, so the map names nothing there. -/
theorem targetOf_of_reservedOffset {off : Nat} (h : ReservedOffset off) : targetOf off = .reserved := by
  unfold ReservedOffset at h
  cases ht : targetOf off with
  | cmd => have := offset_of_cmd ht; omega
  | status => have := offset_of_status ht; omega
  | inv => have := offset_of_inv ht; omega
  | limb k j =>
    obtain ⟨hoff, -, -⟩ := offset_of_limb ht
    have hj := j.isLt
    rw [limbOffset_eq] at hoff
    omega
  | reserved => rfl

/-- The whole map: an aligned offset of the window is a control register's, a limb's, or reserved
(20_memory.md R29). -/
theorem alignedOffset_cases {off : Nat} (ha : off % 8 = 0) (hw : off < 0x800) :
    off = 0x000 ∨ off = 0x008 ∨ off = 0x010 ∨ (∃ k j, off = limbOffset k j) ∨ ReservedOffset off := by
  by_cases hslot : 0x400 ≤ off ∧ (off - 0x400) % 0x40 < 0x30
  · have hlimb : off = limbOffset ⟨(off - 0x400) / 0x40, by omega⟩ ⟨(off - 0x400) % 0x40 / 8, by omega⟩ := by
      show off = 0x400 + 0x40 * ((off - 0x400) / 0x40) + 8 * ((off - 0x400) % 0x40 / 8)
      omega
    exact .inr (.inr (.inr (.inl ⟨_, _, hlimb⟩)))
  · unfold ReservedOffset; omega

theorem limbOffset_aligned (k : RegIdx) (j : LimbIdx) : limbOffset k j % 8 = 0 := by
  rw [limbOffset_eq]; omega

theorem limbOffset_lt_window (k : RegIdx) (j : LimbIdx) : limbOffset k j < 0x800 := by
  have hk := k.isLt
  have hj := j.isLt
  rw [limbOffset_eq]; omega

/-! ## Reads -/

/-- A read looks at the registers only, not at the port. -/
theorem readTarget_congr {s t : State} (h : SameRegisters s t) (tgt : Target) :
    t.readTarget tgt = s.readTarget tgt := by
  obtain ⟨hw, hinv, herr, hcause⟩ := h
  cases tgt with
  | cmd => rfl
  | status => simp only [State.readTarget, herr, hcause]
  | inv => exact hinv
  | limb k j => simp only [State.readTarget, hw]
  | reserved => rfl

/-- A read that breaks the access rule (20_memory.md R31). -/
theorem memRead_bad {off n : Nat} (h : n ≠ 8 ∨ off % 8 ≠ 0 ∨ 0x800 ≤ off) (s : State) :
    s.memRead off n = .error .busError := by
  have hbad : WellFormed.read off n = false := (accessOk_read_eq_false_iff off n).2 h
  rw [State.memRead, if_pos hbad]

/-- A read that keeps the access rule. -/
theorem memRead_aligned {off : Nat} (ha : off % 8 = 0) (hw : off < 0x800) (s : State) :
    s.memRead off 8 = .ok (s.readTarget (targetOf off)) := by
  have hok : WellFormed.read off 8 = true := (readOk_iff off 8).2 ⟨rfl, ha, hw⟩
  simp only [State.memRead, hok, Bool.true_eq_false, if_false]

/-- STATUS as the pseudocode of 20_memory.md R33 puts it together. -/
theorem statusWord_eq_ofNat (err : Bool) (cause : BitVec 4) :
    statusWord err cause = BitVec.ofNat 64 (16 * cause.toNat + err.toNat) := by
  rw [← toNat_statusWord, BitVec.ofNat_toNat, BitVec.setWidth_eq]

theorem toList_getD_eq_readW (s : State) (k : RegIdx) : s.w.toList.getD k.val 0 = s.readW k := by
  simp [State.readW, List.getD_eq_getElem?_getD]

/-- The limb that the pseudocode of 20_memory.md R33 reads at the offset of a limb: it finds the register and
the limb from the offset again. -/
theorem mappedLimb_limbOffset (s : State) (k : RegIdx) (j : LimbIdx) :
    (s.w.toList.getD ((limbOffset k j - 0x400) / 2 ^ 6) 0).extractLsb'
      (64 * ((limbOffset k j - 0x400) % 0x40 / 8)) 64 = limb (s.readW k) j.val := by
  have hj := j.isLt
  have hreg : (limbOffset k j - 0x400) / 2 ^ 6 = k.val := by rw [limbOffset_eq]; omega
  have hlimb : (limbOffset k j - 0x400) % 0x40 / 8 = j.val := by rw [limbOffset_eq]; omega
  rw [hreg, hlimb, toList_getD_eq_readW, limb]

/-- The value at an aligned offset of the window, as the pseudocode of 20_memory.md R33 has it: one case for
each kind of offset. -/
theorem readTarget_targetOf {off : Nat} (ha : off % 8 = 0) (hw : off < 0x800) (s : State) :
    s.readTarget (targetOf off) =
      if off = 0x000 then 0
      else if off = 0x008 then BitVec.ofNat 64 (16 * s.cause.toNat + s.err.toNat)
      else if off = 0x010 then s.inv
      else if 0x400 ≤ off ∧ (off - 0x400) % 0x40 / 8 ≤ 5 then
        (s.w.toList.getD ((off - 0x400) / 2 ^ 6) 0).extractLsb' (64 * ((off - 0x400) % 0x40 / 8)) 64
      else 0 := by
  obtain rfl | rfl | rfl | ⟨k, j, rfl⟩ | hres := alignedOffset_cases ha hw
  · rfl
  · exact statusWord_eq_ofNat s.err s.cause
  · rfl
  · have hj := j.isLt
    have heq := limbOffset_eq k j
    rw [if_neg (by omega), if_neg (by omega), if_neg (by omega), if_pos (by omega), mappedLimb_limbOffset,
      targetOf_limbOffset, State.readTarget]
  · rw [targetOf_of_reservedOffset hres]
    unfold ReservedOffset at hres
    rw [if_neg (by omega), if_neg (by omega), if_neg (by omega), if_neg (by omega), State.readTarget]

/-- Settles O30: the value is `readTarget_targetOf` at the offsets that keep the access rule; the step that serves
the read is `step_read`. -/
theorem hostReadReturnsTheMappedValue : Obligations.HostReadReturnsTheMappedValue := by
  constructor
  · intro s off n
    split
    · next hbad => exact memRead_bad hbad s
    · next hok =>
      obtain ⟨rfl, ha, hw⟩ : n = 8 ∧ off % 8 = 0 ∧ off < 0x800 := by omega
      rw [memRead_aligned ha hw, readTarget_targetOf ha hw]
  · intro s off n v rest hin hread
    by_cases hbad : n ≠ 8 ∨ off % 8 ≠ 0 ∨ 0x800 ≤ off
    · rw [memRead_bad hbad] at hread; cases hread
    · obtain ⟨rfl, ha, hw⟩ : n = 8 ∧ off % 8 = 0 ∧ off < 0x800 := by omega
      rw [memRead_aligned ha hw] at hread
      rw [step_read hin ha hw, Except.ok.inj hread]; rfl

/-! ## Writes -/

/-- A write that breaks the access rule (20_memory.md R31). -/
theorem memWrite_bad {off n : Nat} {lanes : BitVec 8}
    (h : n ≠ 8 ∨ lanes ≠ 0xFF ∨ off % 8 ≠ 0 ∨ 0x800 ≤ off) (v : Limb) (s : State) :
    memWrite off n lanes v s = .fault .busError := by
  have hbad : WellFormed.write off n lanes = false := (accessOk_write_eq_false_iff off n lanes v).2 h
  rw [memWrite, if_pos hbad]

/-- A write that keeps the access rule. -/
theorem memWrite_aligned {off : Nat} (ha : off % 8 = 0) (hw : off < 0x800) (v : Limb) (s : State) :
    memWrite off 8 0xFF v s = .next (written (targetOf off) v s) :=
  memWrite_ok ((writeOk_iff off 8 0xFF).2 ⟨rfl, rfl, ha, hw⟩) v s

theorem memWrite_cmd (v : Limb) (s : State) : memWrite 0x000 8 0xFF v s = issueCommand v s := by
  rw [memWrite_aligned (by decide) (by decide), ← writeTarget_eq]; rfl

theorem memWrite_status (v : Limb) (s : State) :
    memWrite 0x008 8 0xFF v s =
      .next (if v.toNat % 2 = 1 then { s with err := false, cause := 0 } else s) := by
  rw [memWrite_aligned (by decide) (by decide), targetOf_status, written, writeStatus_eq]

theorem memWrite_inv (v : Limb) (s : State) : memWrite 0x010 8 0xFF v s = .next { s with inv := v } := by
  rw [memWrite_aligned (by decide) (by decide)]; rfl

theorem memWrite_limbOffset (k : RegIdx) (j : LimbIdx) (v : Limb) (s : State) :
    memWrite (limbOffset k j) 8 0xFF v s = .next (s.writeLimb k j v) := by
  rw [memWrite_aligned (limbOffset_aligned k j) (limbOffset_lt_window k j), targetOf_limbOffset, written]

theorem memWrite_reserved {off : Nat} (ha : off % 8 = 0) (hw : off < 0x800) (h : ReservedOffset off) (v : Limb)
    (s : State) : memWrite off 8 0xFF v s = .next s := by
  rw [memWrite_aligned ha hw, targetOf_of_reservedOffset h, written]

/-- Settles O31: a malformed write is `memWrite_bad`, and each kind of offset has its own lemma. -/
theorem hostWriteStoresToItsTarget : Obligations.HostWriteStoresToItsTarget := by
  intro s off n lanes v
  refine ⟨fun hbad => memWrite_bad hbad v s, ?_⟩
  rintro rfl rfl ha hw
  refine ⟨?_, ?_, ?_, ?_, fun hres => memWrite_reserved ha hw hres v s⟩
  · rintro rfl; exact memWrite_cmd v s
  · rintro rfl; exact memWrite_status v s
  · rintro rfl; exact memWrite_inv v s
  · rintro k j rfl
    exact ⟨s.writeLimb k j v, memWrite_limbOffset k j v s, fun k' j' => limb_readW_writeLimb s k k' j j' v,
      writeLimb_inv .., writeLimb_err .., writeLimb_cause .., writeLimb_inputs .., writeLimb_responses ..,
      writeLimb_draws ..⟩

/-- Settles O32: the map names nothing at a reserved offset, so `step_read` answers 0 and `step_write` stores
nothing. -/
theorem reservedOffsetsReadZeroAndIgnoreWrites : Obligations.ReservedOffsetsReadZeroAndIgnoreWrites := by
  intro s off rest ha hw hres
  have htgt : targetOf off = .reserved := targetOf_of_reservedOffset hres
  constructor
  · intro hin
    rw [step_read hin ha hw, htgt]; rfl
  · intro v hin
    rw [step_write hin ha hw, htgt]; rfl

/-! ## Side effects -/

/-- What the port answers to a read, performed or turned away (20_memory.md R33; 60_exceptions.md R84). -/
def readResponse (off n : Nat) (s : State) : Response :=
  if WellFormed.read off n = false then .busError else .data (s.readTarget (targetOf off))

/-- Serving a read does nothing but answer it. -/
theorem served_read (off n : Nat) (s : State) : served (.read off n) s = s.respond (readResponse off n s) := by
  simp only [served, readResponse]; split <;> rfl

theorem readResponse_congr {s t : State} (h : SameRegisters s t) (off n : Nat) :
    readResponse off n t = readResponse off n s := by
  simp only [readResponse, readTarget_congr h]

/-- A step that serves a read, performed or turned away. -/
theorem step_anyRead {s : State} {off n : Nat} {rest : List PortEvent} (h : s.inputs = .access (.read off n) :: rest) :
    step s = .next ((s.taken rest).respond (readResponse off n s)) := by
  rw [step_access h, served_read]; rfl

/-- Taking an event from the port and answering it touches no register. -/
theorem taken_respond_sameRegisters (s : State) (rest : List PortEvent) (r : Response) :
    SameRegisters s ((s.taken rest).respond r) :=
  ⟨fun _ => rfl, rfl, rfl, rfl⟩

/-- Two equal reads one after the other change no register and have the same answer (20_memory.md R36). -/
theorem run_readTwice {s : State} {off n : Nat} {rest : List PortEvent}
    (h : s.inputs = .access (.read off n) :: .access (.read off n) :: rest) :
    Host.Core.run Sys2Proof.core 2 s =
      .next (((s.taken rest).respond (readResponse off n s)).respond (readResponse off n s)) := by
  have hsame : readResponse off n ((s.taken (.access (.read off n) :: rest)).respond (readResponse off n s)) =
      readResponse off n s := readResponse_congr (taken_respond_sameRegisters ..) off n
  rw [run_succ (step_anyRead h), run_succ (step_anyRead rfl), hsame]
  rfl

/-- A clearing write to STATUS leaves nothing for a second one to change (60_exceptions.md R82). -/
theorem memWrite_status_idempotent {v : Limb} (hv : v.toNat % 2 = 1) (s : State) :
    ∃ t, memWrite 0x008 8 0xFF v s = .next t ∧ memWrite 0x008 8 0xFF v t = .next t := by
  refine ⟨{ s with err := false, cause := 0 }, ?_, ?_⟩ <;> rw [memWrite_status, if_pos hv]

set_option exponentiation.threshold 400 in
/-- The command `addmod w0, w0, w0, w1` with `W1 = 0` doubles `W0`: 1 becomes 2, then 4. -/
theorem memWrite_cmd_not_idempotent :
    ∃ (s t u : State) (c : Limb), memWrite 0x000 8 0xFF c s = .next t ∧ memWrite 0x000 8 0xFF c t = .next u ∧
      u ≠ t := by
  have hdec : decode 0x10001 = .ok (.addmod 0 0 0 1) := by decide
  refine ⟨State.reset.writeW 0 1, _, _, 0x10001, (memWrite_cmd _ _).trans (issueCommand_ok hdec _),
    (memWrite_cmd _ _).trans (issueCommand_ok hdec _), fun h => ?_⟩
  have hdouble : addModValue 1 1 0 = 2 := by decide
  have hagain : addModValue 2 2 0 = 4 := by decide
  have hmod : State.reset.readW 1 = 0 := rfl
  have hw0 := congrArg (fun x => x.readW 0) h
  simp only [Instr.rd, commandValue, readW_writeW, if_true, Fin.reduceEq, if_false, hmod, hdouble, hagain] at hw0
  exact absurd hw0 (by decide)

/-- Settles O35: one lemma for each kind of access. -/
theorem sideEffectsOfAccesses : Obligations.SideEffectsOfAccesses := by
  refine ⟨?_, fun s v => memWrite_inv v s, ?_, fun s v hv => memWrite_status_idempotent hv s,
    memWrite_cmd_not_idempotent⟩
  · intro s t off n rest hin hrun
    rw [run_readTwice hin] at hrun
    obtain rfl := Host.Outcome.next.inj hrun
    exact ⟨⟨fun _ => rfl, rfl, rfl, rfl⟩, readResponse off n s, by simp⟩
  · intro s k j v
    refine ⟨s.writeLimb k j v, memWrite_limbOffset k j v s, writeW_onlyWChanges .., fun j' => ?_⟩
    rw [limb_readW_writeLimb]; simp only [true_and]

end Machine

end Sys2Proof
end

section
/-! The legal command space (30_encoding.md R54), and what a step does with each word written to CMD
(30_encoding.md R51 to R53; 60_exceptions.md R81). -/

namespace Sys2Proof

/-- The legal words in numbers: one of the three opcodes, and no bit above bit 19. -/
theorem decode_ok_iff_toNat (c : BitVec 64) : (∃ i, decode c = .ok i) ↔
    (c.toNat % 16 = 1 ∨ c.toNat % 16 = 2 ∨ c.toNat % 16 = 3) ∧ c.toNat < 2 ^ 20 := by
  rw [decode_ok_iff, WellFormed.command, Bool.and_eq_true, opcodeOk_iff, reservedOk_iff,
    Nat.div_eq_zero_iff_lt (by decide)]

/-- A legal word is one of the three opcodes, less 1, with its 16 bits of register fields (30_encoding.md R54). -/
def legalWordEquiv : { c : BitVec 64 // ∃ i, decode c = .ok i } ≃ Fin 3 × Fin (2 ^ 16) where
  toFun c :=
    have h := (decode_ok_iff_toNat c.1).1 c.2
    (⟨c.1.toNat % 16 - 1, by omega⟩, ⟨c.1.toNat / 16, by omega⟩)
  invFun x := ⟨BitVec.ofNat 64 (16 * x.2.val + (x.1.val + 1)), by
    rw [decode_ok_iff_toNat, BitVec.toNat_ofNat]; omega⟩
  left_inv := by
    rintro ⟨c, hc⟩
    have h := (decode_ok_iff_toNat c).1 hc
    apply Subtype.ext
    rw [← BitVec.toNat_inj, BitVec.toNat_ofNat]
    dsimp only
    omega
  right_inv := by
    rintro ⟨o, f⟩
    ext <;> simp only [BitVec.toNat_ofNat] <;> omega

/-- The size of the legal command space (30_encoding.md R54). -/
theorem card_legalWords : Nat.card { c : BitVec 64 // ∃ i, decode c = .ok i } = 3 * 2 ^ 16 := by
  rw [Nat.card_congr legalWordEquiv, Nat.card_prod, Nat.card_fin, Nat.card_fin]

namespace Machine

open Safety

/-- Settles O3: the words are counted by `card_legalWords`, and a word that does not decode has a decode error, which
`issueCommand` records. -/
theorem legalCommandSpace : Obligations.LegalCommandSpace := by
  refine ⟨decode_ok_iff_toNat, card_legalWords, fun c s hnone => ?_⟩
  cases hd : decode c with
  | ok i => exact absurd hd (hnone i)
  | error e => exact ⟨e, rfl, issueCommand_error hd s⟩

/-- A step that serves a word which is no command: the write is answered, no register changes but STATUS, and STATUS
keeps the first error (60_exceptions.md R81). -/
theorem step_commandError {s : State} {c : BitVec 64} {rest : List PortEvent} {e : DecodeError}
    (h : s.inputs = .access (commandWrite c) :: rest) (hd : decode c = .error e) :
    ∃ t, step s = .next t ∧ Answered s t rest .done ∧ (∀ k, t.readW k = s.readW k) ∧ t.inv = s.inv ∧
      t.err = true ∧ t.cause = (if s.err = true then s.cause else e.code) := by
  refine ⟨((s.taken rest).commandError e).respond .done, ?_, ?_, ?_, ?_, ?_, ?_⟩
  · rw [step_command h]; simp only [written, hd]
  · simp [Answered]
  · intro k; rw [respond_readW, commandError_readW]; rfl
  · rw [respond_inv, commandError_inv]
  · rw [respond_err, commandError_err]
  · rw [respond_cause, commandError_cause]

/-- A step that serves a command: it is executed, and the write is answered (30_encoding.md R51). -/
theorem step_commandExecuted {s : State} {c : BitVec 64} {rest : List PortEvent} {i : Instr}
    (h : s.inputs = .access (commandWrite c) :: rest) (hd : decode c = .ok i) :
    ∃ t, exec i (s.taken rest) = .next t ∧ step s = .next { t with responses := s.responses ++ [.done] } := by
  refine ⟨_, exec_eq i _, ?_⟩
  rw [step_command h]; simp only [written, hd]; rfl

/-- Settles O27: the three clauses are the three answers of `decode`. -/
theorem commandWordsAreDecodedOrRecorded : Obligations.CommandWordsAreDecodedOrRecorded := by
  intro s c rest hin
  refine ⟨fun hop => ?_, fun hop hrsv => ?_, fun hop hrsv => ?_⟩
  · rw [← opcodeOk_iff, Bool.not_eq_true] at hop
    exact step_commandError hin (decode_illegalOpcode c hop)
  · rw [ne_eq, ← reservedOk_iff, Bool.not_eq_true] at hrsv
    exact step_commandError hin (decode_reservedBits c ((opcodeOk_iff c).2 hop) hrsv)
  · obtain ⟨i, hd, hopc, hrd, hra, hrb, hrp⟩ := decode_legal c ((opcodeOk_iff c).2 hop) ((reservedOk_iff c).2 hrsv)
    exact ⟨i, hopc, hrd, hra, hrb, hrp, step_commandExecuted hin hd⟩

end Machine

end Sys2Proof
end

section
/-! The values of ADDMOD and SUBMOD as numbers: for every input (40_add_sub.md R59, R62), and for reduced operands
(R58, R64). -/

namespace Sys2Proof

namespace Machine

open Safety

set_option exponentiation.threshold 400

/-! ## Every input -/

theorem toNat_addModValue (a b p : Word384) : (addModValue a b p).toNat =
    (if p.toNat ≤ a.toNat + b.toNat then a.toNat + b.toNat - p.toNat else a.toNat + b.toNat) % 2 ^ 384 :=
  BitVec.toNat_ofNat _ _

/-- Without a borrow the difference needs no reduction; with one, `p` is added back to it modulo `2^384`. -/
theorem toNat_subModValue (a b p : Word384) : (subModValue a b p).toNat =
    if a.toNat < b.toNat then (2 ^ 384 + a.toNat - b.toNat + p.toNat) % 2 ^ 384 else a.toNat - b.toNat := by
  have ha := a.isLt
  have hb := b.isLt
  by_cases hlt : a.toNat < b.toNat
  · simp only [subModValue, hlt, decide_true, if_true, BitVec.toNat_add, BitVec.toNat_sub]
    omega
  · simp only [subModValue, hlt, decide_false, Bool.false_eq_true, if_false, BitVec.toNat_sub]
    omega

theorem addModValue_comm (a b p : Word384) : addModValue a b p = addModValue b a p := by
  simp only [addModValue, Nat.add_comm]

theorem subModValue_self (a p : Word384) : subModValue a a p = 0 := by
  apply BitVec.eq_of_toNat_eq
  rw [toNat_subModValue, if_neg (Nat.lt_irrefl _), Nat.sub_self]; rfl

theorem subModValue_zero (a p : Word384) : subModValue a 0 p = a := by
  apply BitVec.eq_of_toNat_eq
  have hzero : (0 : Word384).toNat = 0 := rfl
  rw [toNat_subModValue, hzero, if_neg (Nat.not_lt_zero _), Nat.sub_zero]

/-! ## Reduced operands -/

section Reduced

variable {a b p : Word384}

/-- For reduced operands the sum is below `2p`, so one subtraction reduces it and the truncation removes nothing. -/
theorem toNat_addModValue_of_reduced (h : AddSubPre a b p) : (addModValue a b p).toNat =
    if p.toNat ≤ a.toNat + b.toNat then a.toNat + b.toNat - p.toNat else a.toNat + b.toNat := by
  obtain ⟨-, ha, hb⟩ := h
  have hp := p.isLt
  rw [toNat_addModValue, Nat.mod_eq_of_lt]
  split <;> omega

/-- For reduced operands the truncation after the borrow removes exactly the carry out. -/
theorem toNat_subModValue_of_reduced (h : AddSubPre a b p) : (subModValue a b p).toNat =
    if a.toNat < b.toNat then a.toNat + p.toNat - b.toNat else a.toNat - b.toNat := by
  obtain ⟨-, ha, hb⟩ := h
  have hp := p.isLt
  rw [toNat_subModValue]
  split <;> omega

theorem addModValue_reduced (h : AddSubPre a b p) : Reduced (addModValue a b p) p := by
  have hsum := toNat_addModValue_of_reduced h
  obtain ⟨-, ha, hb⟩ := h
  split at hsum <;> omega

theorem subModValue_reduced (h : AddSubPre a b p) : Reduced (subModValue a b p) p := by
  have hdiff := toNat_subModValue_of_reduced h
  obtain ⟨-, ha, hb⟩ := h
  split at hdiff <;> omega

/-- ADDMOD's value is the residue of the sum (40_add_sub.md R59). -/
theorem addModValue_residue (h : AddSubPre a b p) :
    (addModValue a b p).toNat = (a.toNat + b.toNat) % p.toNat := by
  have hlt := addModValue_reduced h
  rw [← Nat.mod_eq_of_lt hlt, toNat_addModValue_of_reduced h]
  split
  · next hle => exact (Nat.mod_eq_sub_mod hle).symm
  · rfl

/-- SUBMOD's value is the residue of the difference (40_add_sub.md R62). -/
theorem subModValue_residue (h : AddSubPre a b p) :
    ((subModValue a b p).toNat : Int) = ((a.toNat : Int) - b.toNat) % (p.toNat : Int) := by
  have hlt := subModValue_reduced h
  have hdiff := toNat_subModValue_of_reduced h
  obtain ⟨-, ha, hb⟩ := h
  rw [← Int.emod_eq_of_lt (Int.natCast_nonneg _) (Int.ofNat_lt.2 hlt)]
  split at hdiff
  · rw [← Int.add_emod_right ((a.toNat : Int) - b.toNat)]
    congr 1
    omega
  · congr 1
    omega

/-- Subtracting `b` undoes adding it: a sum that was reduced is below `b`, so the subtraction borrows. -/
theorem subModValue_addModValue (h : AddSubPre a b p) : subModValue (addModValue a b p) b p = a := by
  have hsum := toNat_addModValue_of_reduced h
  have hred := addModValue_reduced h
  obtain ⟨hp, ha, hb⟩ := h
  have hdiff := toNat_subModValue_of_reduced ⟨hp, hred, hb⟩
  apply BitVec.eq_of_toNat_eq
  split at hsum <;> split at hdiff <;> omega

theorem addModValue_zero (ha : Reduced a p) : addModValue a 0 p = a := by
  apply BitVec.eq_of_toNat_eq
  have hzero : (0 : Word384).toNat = 0 := rfl
  rw [toNat_addModValue, hzero, Nat.add_zero, if_neg (Nat.not_le.2 ha), Nat.mod_eq_of_lt a.isLt]

/-- The largest residue and 1 make the modulus, which reduces to 0 (40_add_sub.md R64). -/
theorem addModValue_sub_one_one (hp : Modulus p) : addModValue (p - 1) 1 p = 0 := by
  have hpred : (p - 1).toNat + (1 : Word384).toNat = p.toNat := by
    have hone : (1 : Word384) ≤ p := hp
    rw [BitVec.toNat_sub_of_le hone]
    exact Nat.sub_add_cancel hp
  apply BitVec.eq_of_toNat_eq
  rw [toNat_addModValue, hpred, if_pos (Nat.le_refl _), Nat.sub_self]; rfl

end Reduced

/-! ## The obligations -/

/-- Settles O10: both commands write their value by `exec_eq`, and that value is the exact residue for reduced
operands. -/
theorem addmodAndSubmodGiveTheExactResidue : Obligations.AddmodAndSubmodGiveTheExactResidue := by
  intro rd ra rb rp s
  refine ⟨_, _, exec_eq _ s, exec_eq _ s, fun hpre => ?_, fun _ => ?_, writeW_onlyWChanges .., writeW_onlyWChanges ..⟩
  · simp only [Instr.rd, commandValue, readW_writeW_same]
    exact ⟨addModValue_residue hpre, subModValue_residue hpre⟩
  · simp only [Instr.rd, commandValue, readW_writeW_same, and_self]

/-- Settles O11: one lemma for each law. -/
theorem addSubLaws : Obligations.AddSubLaws := by
  intro a b p hpre
  have ⟨hp, ha, _⟩ := hpre
  exact ⟨addModValue_reduced hpre, subModValue_reduced hpre, subModValue_addModValue hpre, addModValue_comm a b p,
    addModValue_zero ha, subModValue_zero a p, subModValue_self a p, addModValue_sub_one_one hp, subModValue_self 0 p⟩

end Machine

end Sys2Proof
end

section
/-! The limb datapaths of the adder and the subtractor (40_add_sub.md R60, R63). -/

namespace Sys2Proof

namespace Machine

set_option exponentiation.threshold 400

/-! ## The two chains over the limbs of two values -/

theorem limbs_length_eq (a b : Word384) : (limbs a).length = (limbs b).length :=
  (limbs_length a).trans (limbs_length b).symm

theorem limbsVal_lt_of_six {ls : List Limb} (h : ls.length = 6) : limbsVal ls < 2 ^ 384 := by
  have hlt := limbsVal_lt ls
  rwa [h] at hlt

theorem addChain_limbs_length (a b : Word384) : (addChain (limbs a) (limbs b) false).1.length = 6 :=
  (addChain_length _ _ false (limbs_length_eq a b)).trans (limbs_length a)

theorem subChain_limbs_length (a b : Word384) : (subChain (limbs a) (limbs b) false).1.length = 6 :=
  (subChain_length _ _ false (limbs_length_eq a b)).trans (limbs_length a)

/-- The borrow chain over two values: the difference limbs and the borrow out are their exact difference. -/
theorem subChain_limbs (a b : Word384) :
    a.toNat + 2 ^ 384 * (subChain (limbs a) (limbs b) false).2.toNat =
      limbsVal (subChain (limbs a) (limbs b) false).1 + b.toNat := by
  have hspec := subChain_spec (limbs a) (limbs b) false (limbs_length_eq a b)
  simpa only [limbsVal_limbs, limbs_length, Nat.reduceMul, Bool.toNat_false, Nat.add_zero] using hspec

/-! ## The adder -/

section Adder

variable (a b p : Word384)

theorem addWork_sum_length : (addWork a b p).sum.length = 6 := addChain_limbs_length a b

theorem addWork_sum_length_eq : (addWork a b p).sum.length = (limbs p).length :=
  (addWork_sum_length a b p).trans (limbs_length p).symm

theorem addWork_diff_length : (addWork a b p).diff.length = 6 :=
  (subChain_length _ _ false (addWork_sum_length_eq a b p)).trans (addWork_sum_length a b p)

/-- `a + b = c6*2^384 + s` (40_add_sub.md R60). -/
theorem addWork_sum_carry :
    a.toNat + b.toNat = (addWork a b p).carry.toNat * 2 ^ 384 + limbsVal (addWork a b p).sum := by
  have hspec := addChain_spec (limbs a) (limbs b) false (limbs_length_eq a b)
  simp only [limbsVal_limbs, limbs_length, Nat.reduceMul, Bool.toNat_false] at hspec
  simp only [addWork]
  omega

/-- `s - p = d - br*2^384`, without negative numbers (40_add_sub.md R60). -/
theorem addWork_diff_borrow : limbsVal (addWork a b p).sum + (addWork a b p).borrow.toNat * 2 ^ 384 =
    limbsVal (addWork a b p).diff + p.toNat := by
  have hspec := subChain_spec (addWork a b p).sum (limbs p) false (addWork_sum_length_eq a b p)
  simp only [limbsVal_limbs, addWork_sum_length, Nat.reduceMul, Bool.toNat_false] at hspec
  simp only [addWork] at hspec ⊢
  omega

/-- The select is 1 exactly when `a + b` is at least `p`: with a carry the sum is at least `2^384`, and without one it
is `s`, which is below `p` exactly when `s - p` borrows (40_add_sub.md R60). -/
theorem addWork_sel_iff : (addWork a b p).sel = true ↔ p.toNat ≤ a.toNat + b.toNat := by
  have hsum := addWork_sum_carry a b p
  have hdiff := addWork_diff_borrow a b p
  have hd := limbsVal_lt_of_six (addWork_diff_length a b p)
  have hp := p.isLt
  unfold AddWork.sel
  cases hc : (addWork a b p).carry
  · cases hbr : (addWork a b p).borrow <;>
      simp only [hc, hbr, Bool.toNat_false, Bool.toNat_true] at hsum hdiff
    · exact iff_of_true rfl (by omega)
    · exact iff_of_false Bool.false_ne_true (by omega)
  · rw [hc, Bool.toNat_true] at hsum
    exact iff_of_true rfl (by omega)

/-- The limbs that the select takes differ from the value's number by a carry and a borrow, whole multiples of
`2^384`. -/
theorem addDatapath_eq : addDatapath a b p = addModValue a b p := by
  have hsum := addWork_sum_carry a b p
  have hdiff := addWork_diff_borrow a b p
  have hsel := addWork_sel_iff a b p
  apply BitVec.eq_of_toNat_eq
  simp only [addDatapath, toNat_ofLimbs, toNat_addModValue]
  by_cases hle : p.toNat ≤ a.toNat + b.toNat
  · rw [if_pos (hsel.2 hle), if_pos hle]
    omega
  · rw [if_neg (mt hsel.1 hle), if_neg hle]
    omega

end Adder

/-! ## The subtractor -/

/-- A mask keeps every limb or clears every limb (40_add_sub.md R63). -/
theorem limbsVal_map_borrowMask (ls : List Limb) (br : Bool) :
    limbsVal (ls.map (· &&& borrowMask br)) = if br then limbsVal ls else 0 := by
  induction ls with
  | nil => cases br <;> rfl
  | cons l rest ih =>
    simp only [List.map_cons, limbsVal, ih]
    cases br
    · simp [borrowMask]
    · simp only [borrowMask, if_true, BitVec.and_allOnes]

/-- The borrow out is 1 exactly when `a < b` (40_add_sub.md R63). -/
theorem subChain_limbs_borrow_iff (a b : Word384) :
    (subChain (limbs a) (limbs b) false).2 = true ↔ a.toNat < b.toNat := by
  have hspec := subChain_limbs a b
  have hd := limbsVal_lt_of_six (subChain_limbs_length a b)
  have hb := b.isLt
  cases hbr : (subChain (limbs a) (limbs b) false).2 <;>
    simp only [hbr, Bool.toNat_false, Bool.toNat_true] at hspec
  · exact iff_of_false Bool.false_ne_true (by omega)
  · exact iff_of_true rfl (by omega)

/-- The subtractor's result as a number: the difference limbs, and `p` on a borrow, modulo `2^384`. -/
theorem toNat_subDatapath (a b p : Word384) : (subDatapath a b p).toNat =
    (limbsVal (subChain (limbs a) (limbs b) false).1 +
      if (subChain (limbs a) (limbs b) false).2 then p.toNat else 0) % 2 ^ 384 := by
  have hlen : (subChain (limbs a) (limbs b) false).1.length =
      ((limbs p).map (· &&& borrowMask (subChain (limbs a) (limbs b) false).2)).length := by
    rw [subChain_limbs_length, List.length_map, limbs_length]
  have hadd := addChain_spec _ _ false hlen
  rw [limbsVal_map_borrowMask, limbsVal_limbs, subChain_limbs_length, Bool.toNat_false, Nat.add_zero] at hadd
  rw [← hadd, Nat.add_mul_mod_self_left, ← toNat_ofLimbs]
  rfl

/-- On a borrow the difference limbs are `a - b + 2^384`, and without one they are `a - b`. -/
theorem subDatapath_eq (a b p : Word384) : subDatapath a b p = subModValue a b p := by
  have hspec := subChain_limbs a b
  have ha := a.isLt
  apply BitVec.eq_of_toNat_eq
  simp only [toNat_subDatapath, toNat_subModValue, ← subChain_limbs_borrow_iff a b]
  split
  · next hbr =>
    rw [hbr, Bool.toNat_true] at hspec
    omega
  · next hbr =>
    rw [Bool.eq_false_iff.2 hbr, Bool.toNat_false] at hspec
    omega

/-! ## The obligations -/

/-- Settles O19: the two chains give the two equations, which fix the select and with it the result. -/
theorem adderDatapathIsExact : Obligations.AdderDatapathIsExact := by
  intro a b p x
  have hdiff := addWork_diff_borrow a b p
  exact ⟨addDatapath_eq a b p, addWork_sum_carry a b p, by simp only [x]; omega, addWork_sel_iff a b p⟩

/-- Settles O20: the borrow chain's equation fixes the borrow, and the masked add then gives SUBMOD's value. -/
theorem subtractorDatapathIsExact : Obligations.SubtractorDatapathIsExact := fun a b p =>
  ⟨subDatapath_eq a b p, subChain_limbs_borrow_iff a b⟩

end Machine

end Sys2Proof
end

section
/-! A command's word decodes to the command: the word is the sum of its fields (30_encoding.md R47), and the decoder
reads the fields back from that sum. -/

namespace Sys2Proof

/-- A register field above the bits of a word adds its weight. -/
theorem toNat_or_regField (x : BitVec 64) (r : RegIdx) {k : Nat} (hx : x.toNat < 2 ^ k) (hk : k ≤ 60) :
    (x ||| BitVec.ofNat 64 r.val <<< k).toNat = x.toNat + 2 ^ k * r.val := by
  have hfit : r.val * 2 ^ k < 2 ^ 64 := calc
    r.val * 2 ^ k < 2 ^ 4 * 2 ^ k := Nat.mul_lt_mul_of_pos_right r.isLt (Nat.two_pow_pos k)
    _ = 2 ^ (4 + k) := (Nat.pow_add ..).symm
    _ ≤ 2 ^ 64 := Nat.pow_le_pow_right (by decide) (by omega)
  have hr : r.val < 2 ^ 64 := Nat.lt_trans r.isLt (by decide)
  rw [BitVec.toNat_or, BitVec.toNat_shiftLeft, BitVec.toNat_ofNat, Nat.mod_eq_of_lt hr, Nat.shiftLeft_eq,
    Nat.mod_eq_of_lt hfit, ← Nat.shiftLeft_eq, Nat.or_comm, ← Nat.shiftLeft_add_eq_or_of_lt hx, Nat.shiftLeft_eq,
    Nat.add_comm, Nat.mul_comm]

theorem toNat_encodeR4 (o : BitVec 4) (rd ra rb rp : RegIdx) : (encodeR4 o rd ra rb rp).toNat =
    o.toNat + 2 ^ 4 * rd.val + 2 ^ 8 * ra.val + 2 ^ 12 * rb.val + 2 ^ 16 * rp.val := by
  have hopc : (o.setWidth 64).toNat = o.toNat := BitVec.toNat_setWidth_of_le (by decide)
  have ho := o.isLt
  have hd := toNat_or_regField (o.setWidth 64) rd (k := 4) (by omega) (by decide)
  have ha := toNat_or_regField (k := 8) _ ra (by rw [hd]; omega) (by decide)
  have hb := toNat_or_regField (k := 12) _ rb (by rw [ha, hd]; omega) (by decide)
  have hp := toNat_or_regField (k := 16) _ rp (by rw [hb, ha, hd]; omega) (by decide)
  rw [encodeR4, hp, hb, ha, hd, hopc]

theorem encode_eq_encodeR4 (i : Instr) : encode i = encodeR4 i.opc i.rd i.ra i.rb i.rp := by
  cases i <;> rfl

theorem encode_legal (i : Instr) : WellFormed.command (encode i) = true := by
  cases i with
  | addmod rd ra rb rp => exact Laws.EncodedWordIsLegal.addmod rd ra rb rp
  | submod rd ra rb rp => exact Laws.EncodedWordIsLegal.submod rd ra rb rp
  | mulmod rd ra rb rp => exact Laws.EncodedWordIsLegal.mulmod rd ra rb rp

/-- The decoder answers a command with the fields of the sum, and the fields fix the command (30_encoding.md R56). -/
theorem decode_encode (i : Instr) : decode (encode i) = .ok i := by
  obtain ⟨hop, hrsv⟩ := Bool.and_eq_true_iff.1 (encode_legal i)
  obtain ⟨j, hj, hopc, hrd, hra, hrb, hrp⟩ := decode_legal (encode i) hop hrsv
  have hsum := toNat_encodeR4 i.opc i.rd i.ra i.rb i.rp
  rw [← encode_eq_encodeR4] at hsum
  have ho := i.opc.isLt
  rw [hj, Instr.ext_fields (i := j) (j := i) (BitVec.eq_of_toNat_eq (by omega)) (Fin.ext (by omega))
    (Fin.ext (by omega)) (Fin.ext (by omega)) (Fin.ext (by omega))]

end Sys2Proof
end

section
/-! Repeated in-place addition at the port (40_add_sub.md R61). -/

namespace Sys2Proof

namespace Machine

open Safety

/-- A step that serves the CMD write of a command: the write is answered, the command's value is in its destination,
and no other W register changes. -/
theorem step_encoded {s : State} {i : Instr} {rest : List PortEvent}
    (h : s.inputs = .access (commandWrite (encode i)) :: rest) :
    ∃ t, step s = .next t ∧ Answered s t rest .done ∧ t.readW i.rd = commandValue i s ∧
      ∀ k, k ≠ i.rd → t.readW k = s.readW k := by
  have hvalue : commandValue i (s.taken rest) = commandValue i s := by cases i <;> rfl
  refine ⟨((s.taken rest).writeW i.rd (commandValue i s)).respond .done, ?_, ⟨rfl, rfl, rfl⟩,
    readW_writeW_same .., fun k hk => readW_writeW_other (s.taken rest) _ _ hk⟩
  rw [step_command h, ← hvalue]
  simp only [written, decode_encode]

/-- The CMD write of `addmod wx, wx, wy, wp`. -/
def inPlaceAddition (x y p : RegIdx) : PortEvent := .access (commandWrite (encode (.addmod x x y p)))

/-- Each command adds one `y` to the residue in `W[x]`, and leaves `y` and `p` for the next (40_add_sub.md R61). -/
theorem run_inPlaceAddition {x y p : RegIdx} (hxy : x ≠ y) (hxp : x ≠ p) (n : Nat) {s : State}
    (hin : s.inputs = List.replicate n (inPlaceAddition x y p))
    (hpre : AddSubPre (s.readW x) (s.readW y) (s.readW p)) :
    ∃ t, Host.Core.run Sys2Proof.core n s = .next t ∧
      (t.readW x).toNat = ((s.readW x).toNat + n * (s.readW y).toNat) % (s.readW p).toNat := by
  induction n generalizing s with
  | zero =>
    obtain ⟨-, hx, -⟩ := hpre
    exact ⟨s, rfl, by rw [Nat.zero_mul, Nat.add_zero, Nat.mod_eq_of_lt hx]⟩
  | succ n ih =>
    obtain ⟨s', hstep, ⟨hin', -, -⟩, hx : s'.readW x = addModValue (s.readW x) (s.readW y) (s.readW p), hother⟩ :=
      step_encoded hin
    have hy := hother y hxy.symm
    have hp := hother p hxp.symm
    have hpre' : AddSubPre (s'.readW x) (s'.readW y) (s'.readW p) := by
      rw [hx, hy, hp]
      exact ⟨hpre.1, addModValue_reduced hpre, hpre.2.2⟩
    obtain ⟨t, hrun, ht⟩ := ih hin' hpre'
    refine ⟨t, (run_succ hstep n).trans hrun, ?_⟩
    rw [ht, hx, hy, hp, addModValue_residue hpre, Nat.mod_add_mod, Nat.succ_mul, Nat.add_right_comm, Nat.add_assoc]

/-- Settles O13: the first part is `exec_eq` for any registers, the second the run of in-place additions. -/
theorem inPlaceAdditionAccumulates : Obligations.InPlaceAdditionAccumulates := by
  refine ⟨fun rd ra rb rp s => ?_, fun n x y p s hxy hxp hpre => run_inPlaceAddition hxy hxp n rfl hpre⟩
  exact ⟨_, _, exec_eq _ s, exec_eq _ s, readW_writeW_same .., readW_writeW_same ..⟩

end Machine

end Sys2Proof
end

section
/-! The widths of MULMOD's accumulator, and its value as a number, for every input (41_montgomery_mul.md R68, R69,
R72). -/

namespace Sys2Proof

namespace Machine

set_option exponentiation.threshold 1000

section EveryInput

variable (a b p : Word384) (inv : Limb)

theorem toNat_mul_toNat_le : a.toNat * b.toNat ≤ (2 ^ 384 - 1) ^ 2 := by
  rw [sq]
  exact Nat.mul_le_mul (Nat.le_sub_one_of_lt a.isLt) (Nat.le_sub_one_of_lt b.isLt)

/-- The multiple of `p` that is added: its factor is below `R`. -/
theorem multiplierSum_mul_le {n : Nat} (hn : n ≤ 6) :
    (∑ i ∈ Finset.range n, montMultiplier inv.toNat (montAcc a.toNat b.toNat p.toNat inv.toNat i) i * 2 ^ (64 * i))
      * p.toNat ≤ (2 ^ 384 - 1) * p.toNat := by
  have hwidth : 2 ^ (64 * n) ≤ 2 ^ 384 := Nat.pow_le_pow_right (by decide) (by omega)
  have hsum := multiplierSum_lt a.toNat b.toNat p.toNat inv.toNat n
  exact Nat.mul_le_mul_right _ (by omega)

/-- Each multiplier is at most `2^64 - 1` (41_montgomery_mul.md R69). -/
theorem sum_multiples_le : ∑ i ∈ Finset.range 6,
      montMultiplier inv.toNat (montAcc a.toNat b.toNat p.toNat inv.toNat i) i * p.toNat * 2 ^ (64 * i)
    ≤ (2 ^ 64 - 1) * p.toNat * ∑ i ∈ Finset.range 6, 2 ^ (64 * i) := by
  rw [Finset.mul_sum]
  exact Finset.sum_le_sum fun i _ => Nat.mul_le_mul_right _ (Nat.mul_le_mul_right _ (montMultiplier_le ..))

/-- The largest multipliers are the digits of `2^384 - 1` (41_montgomery_mul.md R69). -/
theorem largest_multiples_eq :
    (2 ^ 64 - 1) * p.toNat * ∑ i ∈ Finset.range 6, 2 ^ (64 * i) = p.toNat * (2 ^ 384 - 1) := by
  have hdigits : (2 ^ 64 - 1) * ∑ i ∈ Finset.range 6, 2 ^ (64 * i) = 2 ^ 384 - 1 := by
    simp only [Finset.sum_range_succ, Finset.sum_range_zero]
    norm_num
  rw [Nat.mul_right_comm, hdigits, Nat.mul_comm]

theorem montAcc_lt {n : Nat} (hn : n ≤ 6) : montAcc a.toNat b.toNat p.toNat inv.toNat n < 2 ^ 769 := by
  have hproduct := toNat_mul_toNat_le a b
  have hmultiple := multiplierSum_mul_le a b p inv hn
  have hp := p.isLt
  rw [montAcc_eq_sum]
  omega

theorem montShifted_eq_div : montShifted a.toNat b.toNat p.toNat inv.toNat =
    montAcc a.toNat b.toNat p.toNat inv.toNat 6 / 2 ^ 384 :=
  Nat.shiftRight_eq_div_pow _ _

/-- One subtraction brings `u` below `2^384`: `a*b + M*p` is below `R*R + R*p`. -/
theorem montShifted_lt : montShifted a.toNat b.toNat p.toNat inv.toNat < 2 ^ 384 + p.toNat := by
  have hproduct := toNat_mul_toNat_le a b
  have hmultiple := multiplierSum_mul_le a b p inv (Nat.le_refl 6)
  rw [montShifted_eq_div, montAcc_eq_sum]
  omega

/-- The truncation removes nothing. -/
theorem toNat_mulModValue : (mulModValue a b p inv).toNat =
    if p.toNat ≤ montShifted a.toNat b.toNat p.toNat inv.toNat
    then montShifted a.toNat b.toNat p.toNat inv.toNat - p.toNat
    else montShifted a.toNat b.toNat p.toNat inv.toNat := by
  have hu := montShifted_lt a b p inv
  have hp := p.isLt
  rw [mulModValue, BitVec.toNat_ofNat, Nat.mod_eq_of_lt]
  split <;> omega

/-- The one subtraction of `p` is taken or not. -/
theorem montShifted_eq_value_or : montShifted a.toNat b.toNat p.toNat inv.toNat = (mulModValue a b p inv).toNat ∨
    montShifted a.toNat b.toNat p.toNat inv.toNat = (mulModValue a b p inv).toNat + p.toNat := by
  have hvalue := toNat_mulModValue a b p inv
  split at hvalue <;> omega

end EveryInput

/-- All ones, with an INV that makes the first multiplier `2^64 - 1`, need the whole width. -/
theorem montAcc_allOnes :
    2 ^ 768 ≤ montAcc (BitVec.allOnes 384).toNat (BitVec.allOnes 384).toNat (BitVec.allOnes 384).toNat
      (BitVec.allOnes 64).toNat 6 := by
  decide

/-- Settles O15: the bounds of the sum `a*b + M*p`, and all ones as the inputs that need the widths. -/
theorem montgomeryAccumulatorBounds : Obligations.MontgomeryAccumulatorBounds := by
  refine ⟨fun a b p inv => ?_, BitVec.allOnes 384, BitVec.allOnes 384, BitVec.allOnes 384, BitVec.allOnes 64,
    montAcc_allOnes, ?_⟩
  · have hfinal := montAcc_lt a b p inv (Nat.le_refl 6)
    have hp := p.isLt
    exact ⟨toNat_mul_toNat_le a b, by decide, sum_multiples_le a b p inv, largest_multiples_eq p, by omega,
      fun n => montAcc_lt a b p inv, by omega⟩
  · rw [montShifted_eq_div]
    exact (Nat.le_div_iff_mul_le (by decide)).2 montAcc_allOnes

end Machine

end Sys2Proof
end

section
/-! Montgomery reduction with a correct INV (41_montgomery_mul.md R70), and its use in the Montgomery domain (R74).
The lemmas ask of the operands at most that `a` is reduced: `b` may be any value, so that the conversion out, by 1,
needs no case of its own for `p = 1`. -/

namespace Sys2Proof

namespace Machine

open Safety

set_option exponentiation.threshold 1000

/-- INV is the negated inverse of the whole modulus modulo `2^64`, because limb 0 is its residue (00_scope.md R8). -/
theorem dvd_inv_mul_add_one {inv : Limb} {p : Word384} (h : InverseOk inv p) :
    2 ^ 64 ∣ inv.toNat * p.toNat + 1 := by
  rw [InverseOk, toNat_limb, Nat.mul_zero, pow_zero, Nat.div_one, Nat.mul_mod_mod] at h
  omega

/-- Elimination `i` clears limb `i` of an accumulator whose lower limbs are clear: above them stands `q`, and
`q + m*p` is `q * (1 + inv*p)`, which is 0, modulo `2^64` (41_montgomery_mul.md R70). -/
theorem dvd_montEliminate {p inv acc i : Nat} (hinv : 2 ^ 64 ∣ inv * p + 1) (hacc : 2 ^ (64 * i) ∣ acc) :
    2 ^ (64 * (i + 1)) ∣ montEliminate p inv acc i := by
  obtain ⟨q, rfl⟩ := hacc
  have hm : montMultiplier inv (2 ^ (64 * i) * q) i ≡ q * inv [MOD 2 ^ 64] := by
    rw [montMultiplier, Nat.shiftRight_eq_div_pow, Nat.mul_div_cancel_left q (Nat.two_pow_pos _)]
    exact (Nat.mod_modEq _ _).trans ((Nat.mod_modEq q _).mul_right inv)
  have hlimb : 2 ^ 64 ∣ q + montMultiplier inv (2 ^ (64 * i) * q) i * p := by
    rw [((hm.mul_right p).add_left q).dvd_iff (Nat.dvd_refl _), show q + q * inv * p = q * (inv * p + 1) by ring]
    exact Nat.dvd_mul_left_of_dvd hinv q
  rw [montEliminate, show 64 * (i + 1) = 64 * i + 64 by ring, pow_add,
    show ∀ m, 2 ^ (64 * i) * q + m * p * 2 ^ (64 * i) = 2 ^ (64 * i) * (q + m * p) by intro m; ring]
  exact Nat.mul_dvd_mul_left _ hlimb

/-- After `n` eliminations the `n` low limbs are clear. -/
theorem dvd_montAcc {p inv : Nat} (hinv : 2 ^ 64 ∣ inv * p + 1) (a b n : Nat) :
    2 ^ (64 * n) ∣ montAcc a b p inv n := by
  induction n with
  | zero => exact Nat.one_dvd _
  | succ n ih => exact dvd_montEliminate hinv ih

section CorrectInv

variable {a p : Word384} {inv : Limb} (hinv : InverseOk inv p) (ha : Reduced a p) (b : Word384)

include hinv in
/-- The shift drops only zeros: `u*R = a*b + M*p` (41_montgomery_mul.md R70). -/
theorem montShifted_mul_radix : montShifted a.toNat b.toNat p.toNat inv.toNat * radix =
    montAcc a.toNat b.toNat p.toNat inv.toNat 6 := by
  rw [montShifted_eq_div]
  exact Nat.div_mul_cancel (dvd_montAcc (dvd_inv_mul_add_one hinv) _ _ 6)

include hinv in
theorem montShifted_mul_radix_modEq :
    montShifted a.toNat b.toNat p.toNat inv.toNat * radix ≡ a.toNat * b.toNat [MOD p.toNat] := by
  rw [montShifted_mul_radix hinv, montAcc_eq_sum]
  exact Nat.add_mul_mod_self_right _ _ _

include hinv ha in
/-- `u*R = a*b + M*p` is below `p*R + R*p` (41_montgomery_mul.md R70). -/
theorem montShifted_lt_two_mul : montShifted a.toNat b.toNat p.toNat inv.toNat < 2 * p.toNat := by
  have hproduct : a.toNat * b.toNat ≤ a.toNat * 2 ^ 384 := Nat.mul_le_mul_left _ b.isLt.le
  have hmultiple := multiplierSum_mul_le a b p inv (Nat.le_refl 6)
  have hexact := montShifted_mul_radix hinv (a := a) b
  rw [montAcc_eq_sum, radix] at hexact
  omega

include hinv ha in
theorem mulModValue_reduced : Reduced (mulModValue a b p inv) p := by
  have hu := montShifted_lt_two_mul hinv ha b
  have hvalue := toNat_mulModValue a b p inv
  split at hvalue <;> omega

include hinv in
/-- `W[rd]*R` is `a*b` modulo `p`, whether or not `p` was subtracted. -/
theorem mulModValue_mul_radix_modEq :
    (mulModValue a b p inv).toNat * radix ≡ a.toNat * b.toNat [MOD p.toNat] := by
  have hmod := montShifted_mul_radix_modEq hinv (a := a) b
  rcases montShifted_eq_value_or a b p inv with hu | hu
  · rwa [hu] at hmod
  · rw [hu, Nat.add_mul] at hmod
    exact (Nat.ModEq.symm (Nat.add_mul_mod_self_left _ _ _)).trans hmod

include hinv ha in
/-- `R` is invertible modulo an odd `p`, so the product is the one residue that `R` carries to `a*b`. -/
theorem mulModValue_eq_of_modEq (hodd : p.toNat % 2 = 1) {c : Word384} (hc : Reduced c p)
    (hmod : c.toNat * radix ≡ a.toNat * b.toNat [MOD p.toNat]) : mulModValue a b p inv = c := by
  have hcoprime : Nat.Coprime p.toNat radix := (Nat.coprime_two_right.2 (Nat.odd_iff.2 hodd)).pow_right 384
  apply BitVec.eq_of_toNat_eq
  exact (((mulModValue_mul_radix_modEq hinv b).trans hmod.symm).cancel_right_of_coprime hcoprime).eq_of_lt_of_lt
    (mulModValue_reduced hinv ha b) hc

end CorrectInv

/-- Settles O14: the lemmas above at the registers' contents, which `exec_eq` says the command reads. -/
theorem mulmodIsTheMontgomeryProduct : Obligations.MulmodIsTheMontgomeryProduct := by
  rintro rd ra rb rp s ⟨-, -, ha, -, hinv⟩
  refine ⟨_, exec_eq _ s, ?_⟩
  simp only [Instr.rd, commandValue, readW_writeW_same]
  rw [show radix = 2 ^ 384 from rfl, ← montShifted_eq_div]
  exact ⟨fun n _ => Nat.mod_eq_zero_of_dvd (dvd_montAcc (dvd_inv_mul_add_one hinv) _ _ n), montAcc_eq_sum ..,
    multiplierSum_lt .., montShifted_mul_radix_modEq hinv _, montShifted_lt_two_mul hinv ha _,
    mulModValue_reduced hinv ha _, mulModValue_mul_radix_modEq hinv _, montShifted_eq_value_or ..⟩

/-! ## The Montgomery domain -/

/-- `mont(x) = x*R mod p` (41_montgomery_mul.md R74). -/
def montForm (p : Word384) (x : Nat) : Word384 := BitVec.ofNat 384 (x * radix % p.toNat)

/-- A residue fits in a register. -/
theorem toNat_ofNat_mod {p : Word384} (hp : Modulus p) (x : Nat) :
    (BitVec.ofNat 384 (x % p.toNat)).toNat = x % p.toNat := by
  rw [BitVec.toNat_ofNat, Nat.mod_eq_of_lt ((Nat.mod_lt x hp).trans p.isLt)]

section Domain

variable {p : Word384} {inv : Limb} (hp : Modulus p)

include hp

theorem toNat_montForm (x : Nat) : (montForm p x).toNat = x * radix % p.toNat := toNat_ofNat_mod hp _

theorem montForm_reduced (x : Nat) : Reduced (montForm p x) p := by
  rw [Reduced, toNat_montForm hp]
  exact Nat.mod_lt _ hp

theorem montForm_modEq (x : Nat) : (montForm p x).toNat ≡ x * radix [MOD p.toNat] := by
  rw [toNat_montForm hp]
  exact Nat.mod_modEq _ _

variable (hodd : p.toNat % 2 = 1) (hinv : InverseOk inv p)

include hodd hinv

theorem mulModValue_montForm_montForm (x y : Nat) :
    mulModValue (montForm p x) (montForm p y) p inv = montForm p (x * y % p.toNat) := by
  refine mulModValue_eq_of_modEq hinv (montForm_reduced hp x) _ hodd (montForm_reduced hp _) ?_
  calc (montForm p (x * y % p.toNat)).toNat * radix
    _ ≡ x * y % p.toNat * radix * radix [MOD p.toNat] := (montForm_modEq hp _).mul_right _
    _ ≡ x * y * radix * radix [MOD p.toNat] := ((Nat.mod_modEq _ _).mul_right _).mul_right _
    _ = x * radix * (y * radix) := by ring
    _ ≡ (montForm p x).toNat * (montForm p y).toNat [MOD p.toNat] :=
      ((montForm_modEq hp x).mul (montForm_modEq hp y)).symm

theorem mulModValue_radix_sq {x : Word384} (hx : Reduced x p) :
    mulModValue x (BitVec.ofNat 384 (radix ^ 2 % p.toNat)) p inv = montForm p x.toNat := by
  refine mulModValue_eq_of_modEq hinv hx _ hodd (montForm_reduced hp _) ?_
  rw [toNat_ofNat_mod hp]
  calc (montForm p x.toNat).toNat * radix
    _ ≡ x.toNat * radix * radix [MOD p.toNat] := (montForm_modEq hp _).mul_right _
    _ = x.toNat * radix ^ 2 := by ring
    _ ≡ x.toNat * (radix ^ 2 % p.toNat) [MOD p.toNat] := (Nat.mod_modEq _ _).symm.mul_left _

theorem mulModValue_montForm_one {x : Word384} (hx : Reduced x p) :
    mulModValue (montForm p x.toNat) 1 p inv = x := by
  refine mulModValue_eq_of_modEq hinv (montForm_reduced hp _) _ hodd hx ?_
  rw [show (1 : Word384).toNat = 1 from rfl, Nat.mul_one]
  exact (montForm_modEq hp _).symm

end Domain

/-- Settles O16: one lemma for each of the three equations, and the round trip by rewriting with them. -/
theorem montgomeryDomainRoundTrip : Obligations.MontgomeryDomainRoundTrip := by
  intro p inv hp hodd hinv mont r2 x y hx hy
  have hproduct := mulModValue_montForm_montForm hp hodd hinv x.toNat y.toNat
  have hinx := mulModValue_radix_sq hp hodd hinv hx
  have hiny := mulModValue_radix_sq hp hodd hinv hy
  refine ⟨hproduct, hinx, mulModValue_montForm_one hp hodd hinv hx, ?_⟩
  have hxy := toNat_ofNat_mod hp (x.toNat * y.toNat)
  have hred : Reduced (BitVec.ofNat 384 (x.toNat * y.toNat % p.toNat)) p := by
    rw [Reduced, hxy]
    exact Nat.mod_lt _ hp
  rw [hinx, hiny, hproduct, ← hxy, mulModValue_montForm_one hp hodd hinv hred]

end Machine

end Sys2Proof
end

section
/-! The interleaved limb schedule (41_montgomery_mul.md R71). -/

namespace Sys2Proof

namespace Machine

set_option exponentiation.threshold 1000

/-- What the working register is between outer steps: six low limbs, limb 6 in {0, 1}, and limb 7 clear. -/
structure CiosReg.Settled (t : CiosReg) : Prop where
  lo_length : t.lo.length = 6
  t6_bit : t.t6 = 0 ∨ t.t6 = 1
  t7_zero : t.t7 = 0

theorem CiosReg.settled_zero : CiosReg.zero.Settled := ⟨rfl, .inl rfl, rfl⟩

/-- The low limb of the number is limb 0 of the register. -/
theorem CiosReg.val_mod {t : CiosReg} (h : t.lo.length = 6) : t.val % 2 ^ 64 = (t.lo.headD 0).toNat := by
  unfold CiosReg.val
  match hlo : t.lo, h with
  | l :: rest, _ =>
    have hl := l.isLt
    simp only [List.cons_append, limbsVal, List.headD_cons]
    omega

namespace CiosReg.Settled

variable {t : CiosReg} (h : t.Settled)

include h

/-- The 385 bits that the result takes are the whole register. -/
theorem result_eq : t.result = t.val := by
  obtain ⟨hlo, ht6, ht7⟩ := h
  rw [CiosReg.val_eq t hlo, CiosReg.result, ht7]
  rcases ht6 with ht6 | ht6 <;> rw [ht6] <;> rfl

theorem val_lt : t.val < 2 ^ 385 := by
  have hlo := limbsVal_lt_of_six h.lo_length
  have hbit := Nat.mod_lt t.t6.toNat (y := 2) (by decide)
  rw [← h.result_eq, CiosReg.result]
  omega

variable (b p : Word384) (ai m : Limb)

theorem ciosMultiply_val_eq : (ciosMultiply b t ai).val = t.val + ai.toNat * b.toNat :=
  ciosMultiply_val b t ai h.lo_length h.t7_zero

/-- During an outer step the number stays below `2^449` (41_montgomery_mul.md R71). -/
theorem ciosMultiply_val_add_lt : (ciosMultiply b t ai).val + m.toNat * p.toNat < 2 ^ 449 := by
  have hlimb (l : Limb) (x : Word384) : l.toNat * x.toNat ≤ (2 ^ 64 - 1) * (2 ^ 384 - 1) :=
    Nat.mul_le_mul (Nat.le_sub_one_of_lt l.isLt) (Nat.le_sub_one_of_lt x.isLt)
  have hval := h.val_lt
  have hab := hlimb ai b
  have hmp := hlimb m p
  rw [h.ciosMultiply_val_eq]
  omega

/-- An outer step settles the register again, with the sum shifted by one limb. -/
theorem ciosReduce_multiply (inv : Limb) :
    (ciosReduce p inv (ciosMultiply b t ai)).Settled ∧
      (ciosReduce p inv (ciosMultiply b t ai)).val =
        ((ciosMultiply b t ai).val + ((ciosMultiply b t ai).lo.headD 0 * inv).toNat * p.toNat) / 2 ^ 64 := by
  have hlen := ciosMultiply_length b t ai h.lo_length
  obtain ⟨hval, ht6, ht7⟩ := ciosReduce_val p inv _ hlen (h.ciosMultiply_val_add_lt b p ai _)
  exact ⟨⟨ciosReduce_length p inv _ hlen, ht6, ht7⟩, hval⟩

end CiosReg.Settled

section Schedule

variable (a b p : Word384) (inv : Limb)

theorem ciosRun_settled {n : Nat} (hn : n ≤ 6) : (ciosRun a b p inv n).Settled := by
  induction n with
  | zero => exact CiosReg.settled_zero
  | succ n ih =>
    rw [ciosRun_succ a b p inv n hn]
    exact ((ih (Nat.le_of_succ_le hn)).ciosReduce_multiply ..).1

/-- The limbs of `a` from `n` on are limb `n` and the limbs after it. -/
theorem toNat_div_limb (n : Nat) :
    a.toNat / 2 ^ (64 * n) = (limb a n).toNat + 2 ^ 64 * (a.toNat / 2 ^ (64 * (n + 1))) := by
  rw [toNat_limb, show 64 * (n + 1) = 64 * n + 64 by ring, pow_add, ← Nat.div_div_eq_div_mul, Nat.mod_add_div]

/-- `n` outer steps have computed R68's accumulator after `n` eliminations, shifted by `n` limbs, but for the
products of the limbs of `a` still to come (41_montgomery_mul.md R71). -/
def ScheduleAgrees (n : Nat) : Prop :=
  montAcc a.toNat b.toNat p.toNat inv.toNat n / 2 ^ (64 * n) =
    (ciosRun a b p inv n).val + a.toNat / 2 ^ (64 * n) * b.toNat

variable {a b p inv} {n : Nat}

/-- The first half of the next outer step adds the product of limb `n`, so that what is still to come lies above one
limb. -/
theorem ScheduleAgrees.acc_eq (h : ScheduleAgrees a b p inv n) (hn : n ≤ 6) :
    montAcc a.toNat b.toNat p.toNat inv.toNat n / 2 ^ (64 * n) =
      (ciosMultiply b (ciosRun a b p inv n) (limb a n)).val +
        2 ^ 64 * (a.toNat / 2 ^ (64 * (n + 1)) * b.toNat) := by
  rw [h, toNat_div_limb, (ciosRun_settled a b p inv hn).ciosMultiply_val_eq]
  ring

/-- The schedule's `m` is R68's `m_n`: the products still to come do not reach limb `n` (41_montgomery_mul.md R71). -/
theorem ScheduleAgrees.multiplier_eq (h : ScheduleAgrees a b p inv n) (hn : n ≤ 6) :
    ((ciosMultiply b (ciosRun a b p inv n) (limb a n)).lo.headD 0 * inv).toNat =
      montMultiplier inv.toNat (montAcc a.toNat b.toNat p.toNat inv.toNat n) n := by
  have hlen := ciosMultiply_length b _ (limb a n) (ciosRun_settled a b p inv hn).lo_length
  rw [montMultiplier, Nat.shiftRight_eq_div_pow, h.acc_eq hn, Nat.add_mul_mod_self_left, CiosReg.val_mod hlen,
    BitVec.toNat_mul]

/-- The floor taken step by step is the floor taken once (41_montgomery_mul.md R71). -/
theorem ScheduleAgrees.succ (h : ScheduleAgrees a b p inv n) (hn : n < 6) : ScheduleAgrees a b p inv (n + 1) := by
  rw [ScheduleAgrees, ciosRun_succ a b p inv n hn, ((ciosRun_settled a b p inv hn.le).ciosReduce_multiply ..).2,
    h.multiplier_eq hn.le, montAcc, montEliminate, show 64 * (n + 1) = 64 * n + 64 by ring, pow_add,
    ← Nat.div_div_eq_div_mul, Nat.add_mul_div_right _ _ (Nat.two_pow_pos _), h.acc_eq hn.le, Nat.add_right_comm,
    Nat.add_mul_div_left _ _ (Nat.two_pow_pos _), ← pow_add]
  rfl

variable (a b p inv)

theorem scheduleAgrees (hn : n ≤ 6) : ScheduleAgrees a b p inv n := by
  induction n with
  | zero => simp [ScheduleAgrees, montAcc, ciosRun, CiosReg.zero, CiosReg.val, limbsVal]
  | succ n ih => exact (ih (Nat.le_of_succ_le hn)).succ hn

/-- After six outer steps no limb of `a` is still to come. -/
theorem ciosRun_result_eq : (ciosRun a b p inv 6).result = montShifted a.toNat b.toNat p.toNat inv.toNat := by
  have hagrees : ScheduleAgrees a b p inv 6 := scheduleAgrees a b p inv (Nat.le_refl 6)
  rw [ScheduleAgrees, Nat.div_eq_of_lt a.isLt, Nat.zero_mul, Nat.add_zero] at hagrees
  rw [(ciosRun_settled a b p inv (Nat.le_refl 6)).result_eq, montShifted_eq_div, ← hagrees]

theorem mulDatapath_eq : mulDatapath a b p inv = mulModValue a b p inv := by
  rw [mulDatapath, ciosRun_result_eq, mulModValue]

end Schedule

/-- Settles O21: the register is settled between outer steps, and there agrees with R68's accumulator. -/
theorem interleavedScheduleIsExact : Obligations.InterleavedScheduleIsExact := by
  refine ⟨fun a b p inv => ⟨mulDatapath_eq a b p inv, fun n hn => ?_, fun n hn => ?_⟩, mac_lt⟩
  · have hsettled := ciosRun_settled a b p inv hn
    exact ⟨Nat.le_sub_one_of_lt hsettled.val_lt, hsettled.t6_bit, hsettled.t7_zero, scheduleAgrees a b p inv hn⟩
  · have hbound := fun m => (ciosRun_settled a b p inv hn.le).ciosMultiply_val_add_lt b p (limb a n) m
    exact ⟨ciosRun_succ a b p inv n hn, (scheduleAgrees a b p inv hn.le).multiplier_eq hn.le,
      Nat.lt_of_le_of_lt (Nat.le_add_right _ _) (hbound 0), hbound _⟩

end Machine

end Sys2Proof
end

section
/-! Errors at the port: what a command leaves of STATUS, what clears it, and how an access that raises an error is
answered (60_exceptions.md R79 to R85). -/

namespace Sys2Proof

namespace Machine

open Safety

/-! ## Commands and STATUS -/

/-- A command's value depends on the W registers and INV only: not on STATUS, and not on the port. -/
theorem commandValue_congr {s t : State} (hw : ∀ k, t.readW k = s.readW k) (hinv : t.inv = s.inv) (i : Instr) :
    commandValue i t = commandValue i s := by
  cases i <;> simp only [commandValue, hw, hinv]

/-- The whole of a step that serves the CMD write of a command. -/
theorem step_encoded_eq {s : State} {i : Instr} {rest : List PortEvent}
    (h : s.inputs = .access (commandWrite (encode i)) :: rest) :
    step s = .next (((s.taken rest).writeW i.rd (commandValue i s)).respond .done) := by
  have hvalue : commandValue i (s.taken rest) = commandValue i s := commandValue_congr (fun _ => rfl) rfl i
  rw [step_command h, ← hvalue]
  simp only [written, decode_encode]

/-- Settles O9: the step is `step_encoded_eq`, which has no premise on the registers and writes one of them. -/
theorem noRegisterContentsStopACommand : Obligations.NoRegisterContentsStopACommand := by
  intro i s rest hin
  refine ⟨_, step_encoded_eq hin, ⟨rfl, rfl, rfl⟩, rfl, rfl, ?_⟩
  rw [respond_readW, readW_writeW_same]
  cases i <;> rfl

/-- A later command error leaves the first one as it is (60_exceptions.md R81). -/
theorem commandError_of_err {s : State} (h : s.err = true) (e : DecodeError) : s.commandError e = s := by
  rw [State.commandError, if_neg (by simp [h])]

/-- Settles O28: `exec_eq` says what a command does in either state, and its value is the same in both. -/
theorem errBlocksNothing : Obligations.ErrBlocksNothing := by
  constructor
  · intro i s e x
    have hvalue : commandValue i { s with err := e, cause := x } = commandValue i s :=
      commandValue_congr (fun _ => rfl) rfl i
    refine ⟨_, exec_eq i s, ?_⟩
    rw [exec_eq, hvalue]; rfl
  · intro c s d herr hd
    rw [issueCommand_error hd, commandError_of_err herr]

/-! ## What clears ERR and CAUSE -/

/-- From `s` to `t`, ERR or CAUSE goes from a value that is not 0 to 0. -/
def ClearsAnError (s t : State) : Prop :=
  (s.err = true ∧ t.err = false) ∨ (s.cause ≠ 0 ∧ t.cause = 0)

theorem not_clearsAnError_of_eq {s t : State} (he : t.err = s.err) (hc : t.cause = s.cause) :
    ¬ ClearsAnError s t := by
  simp [ClearsAnError, he, hc]

/-- A command error sets ERR, and leaves in CAUSE the code it finds or one that is not 0. -/
theorem not_clearsAnError_commandError (s : State) (e : DecodeError) : ¬ ClearsAnError s (s.commandError e) := by
  have hcode : e.code ≠ 0 := by cases e <;> decide
  rintro (⟨-, herr⟩ | ⟨hbefore, hafter⟩)
  · simp at herr
  · rw [commandError_cause] at hafter
    split at hafter
    · exact hbefore hafter
    · exact hcode hafter

/-- Of all writes only one to STATUS with bit 0 = 1 clears an error (60_exceptions.md R82). -/
theorem written_clearsAnError {s : State} {tgt : Target} {v : Limb} (h : ClearsAnError s (written tgt v s)) :
    tgt = .status ∧ v.toNat % 2 = 1 := by
  cases tgt with
  | cmd =>
    rw [written] at h
    cases hd : decode v with
    | ok i => rw [hd] at h; exact absurd h (not_clearsAnError_of_eq (writeW_err ..) (writeW_cause ..))
    | error e => rw [hd] at h; exact absurd h (not_clearsAnError_commandError s e)
  | status =>
    rw [written, writeStatus_eq] at h
    split at h
    · next hv => exact ⟨rfl, hv⟩
    · exact absurd h (not_clearsAnError_of_eq rfl rfl)
  | inv => exact absurd h (not_clearsAnError_of_eq (writeInv_err ..) (writeInv_cause ..))
  | limb k i => exact absurd h (not_clearsAnError_of_eq (writeLimb_err ..) (writeLimb_cause ..))
  | reserved => exact absurd h (not_clearsAnError_of_eq rfl rfl)

/-- A step that clears an error serves a write to STATUS with bit 0 = 1 or a reset: of the other cases of a step only
a write changes STATUS at all. -/
theorem step_clearsAnError {s t : State} (hs : step s = .next t) (h : ClearsAnError s t) :
    (∃ v rest, s.inputs = .access (.write 0x008 8 0xFF v) :: rest ∧ v.toNat % 2 = 1) ∨
    (∃ held rest, s.inputs = .reset held :: rest) := by
  obtain ⟨-, rfl⟩ | ⟨held, rest, hin, -⟩ | ⟨a, rest, -, -, rfl⟩ | ⟨off, rest, -, -, -, rfl⟩ |
    ⟨off, v, rest, hin, -, -, rfl⟩ := step_cases hs
  · exact absurd h (not_clearsAnError_of_eq rfl rfl)
  · exact .inr ⟨held, rest, hin⟩
  · exact absurd h (not_clearsAnError_of_eq rfl rfl)
  · exact absurd h (not_clearsAnError_of_eq rfl rfl)
  · have hclears : ClearsAnError (s.taken rest) (written (targetOf off) v (s.taken rest)) := h
    obtain ⟨htgt, hv⟩ := written_clearsAnError hclears
    obtain rfl := offset_of_status htgt
    exact .inl ⟨v, rest, hin, hv⟩

/-- A step that serves a write to STATUS. -/
theorem step_writeStatus {s : State} {v : Limb} {rest : List PortEvent}
    (h : s.inputs = .access (.write 0x008 8 0xFF v) :: rest) :
    step s = .next (((s.taken rest).writeStatus v).respond .done) := by
  rw [step_write h (by decide) (by decide), targetOf_status, written]

/-- Settles O29: the two steps that clear are `step_writeStatus` and `step_reset`, and `step_clearsAnError` says that
there is no other. -/
theorem onlyStatusWritesAndResetClearErrors : Obligations.OnlyStatusWritesAndResetClearErrors := by
  refine ⟨fun s v rest hin => ?_, fun s held rest hin => ⟨_, step_reset hin, rfl, rfl⟩,
    fun s t => step_clearsAnError⟩
  have hanswered : Answered s (((s.taken rest).writeStatus v).respond .done) rest .done := by simp [Answered]
  exact ⟨_, step_writeStatus hin, hanswered, fun k => writeStatus_readW (s.taken rest) k v,
    writeStatus_inv (s.taken rest) v, writeStatus_err (s.taken rest) v, writeStatus_cause (s.taken rest) v⟩

/-! ## How an access is answered -/

/-- Everything a served access can do: it is turned away, it is a read answered with data, or it is a completed
write. -/
theorem served_cases (a : Access) (s : State) :
    (accessOk a = false ∧ served a s = s.respond .busError) ∨
    (accessOk a = true ∧ ∃ v, served a s = s.respond (.data v)) ∨
    (accessOk a = true ∧ ∃ tgt v, served a s = (written tgt v s).respond .done) := by
  cases a with
  | read off n =>
    cases hok : WellFormed.read off n with
    | false => exact .inl ⟨hok, if_pos hok⟩
    | true => exact .inr (.inl ⟨hok, _, if_neg (by simp [hok])⟩)
  | write off n lanes v =>
    cases hok : WellFormed.write off n lanes with
    | false => exact .inl ⟨hok, if_pos hok⟩
    | true => exact .inr (.inr ⟨hok, _, _, if_neg (by simp [hok])⟩)

/-- An access that keeps the access rule is answered with data or completion (20_memory.md R33, R34). -/
theorem step_accessOk {s : State} {a : Access} {rest : List PortEvent} (h : s.inputs = .access a :: rest)
    (ha : accessOk a = true) :
    ∃ t r, step s = .next t ∧ Answered s t rest r ∧ r ≠ .busError ∧ r ≠ .abandoned := by
  refine ⟨served a (s.taken rest), ?_⟩
  obtain ⟨hbad, -⟩ | ⟨-, v, heq⟩ | ⟨-, tgt, v, heq⟩ := served_cases a (s.taken rest)
  · simp [ha] at hbad
  · exact ⟨.data v, step_access h, by simp [heq, Answered], nofun, nofun⟩
  · exact ⟨.done, step_access h, by simp [heq, Answered], nofun, nofun⟩

/-- Settles O33: an access breaks the rule when `accessOk` turns it away, which is `step_busError`; any other is
`step_accessOk`. -/
theorem busErrorChangesNothing : Obligations.BusErrorChangesNothing := by
  intro s a rest hin broken
  have hbroken : accessOk a = false ↔ broken := by
    cases a with
    | read off n => exact accessOk_read_eq_false_iff off n
    | write off n lanes v => exact accessOk_write_eq_false_iff off n lanes v
  refine ⟨fun h => step_busError hin (hbroken.2 h), fun h => step_accessOk hin ?_⟩
  rwa [← hbroken, Bool.not_eq_false] at h

/-- A step that serves an access raises at most one error: with an error response no register changes, and STATUS
changes only with a completed write. -/
theorem step_access_oneError {s t : State} {a : Access} {rest : List PortEvent} {r : Response}
    (hin : s.inputs = .access a :: rest) (hs : step s = .next t) (hr : t.responses = s.responses ++ [r]) :
    (r = .busError → SameRegisters s t) ∧ (¬ (t.err = s.err ∧ t.cause = s.cause) → r = .done) := by
  rw [step_access hin] at hs
  obtain rfl := Host.Outcome.next.inj hs
  obtain ⟨-, heq⟩ | ⟨-, v, heq⟩ | ⟨-, tgt, v, heq⟩ := served_cases a (s.taken rest)
  · rw [heq]
    exact ⟨fun _ => taken_respond_sameRegisters .., fun h => absurd ⟨rfl, rfl⟩ h⟩
  · rw [heq]
    exact ⟨fun _ => taken_respond_sameRegisters .., fun h => absurd ⟨rfl, rfl⟩ h⟩
  · obtain rfl : r = .done := by simpa [heq, eq_comm] using hr
    exact ⟨nofun, fun _ => rfl⟩

/-- Settles O34: a malformed CMD write is `step_busError`, the opcode is the first check of `decode`, and an access
raises one error by `step_access_oneError`. -/
theorem errorPriority : Obligations.ErrorPriority := by
  refine ⟨fun s n lanes c rest hin hbad => ?_, fun c hop _ => ?_, fun s t a rest r => step_access_oneError⟩
  · have hturned : accessOk (.write 0x000 n lanes c) = false :=
      (accessOk_write_eq_false_iff ..).2 (hbad.imp_right .inl)
    exact ⟨_, step_busError hin hturned, taken_respond_sameRegisters .., rfl, rfl, rfl⟩
  · rw [← opcodeOk_iff, Bool.not_eq_true] at hop
    exact decode_illegalOpcode c hop

end Machine

end Sys2Proof
end

section
/-! Words and commands: the encoder and the decoder are inverse to each other (30_encoding.md R46 to R54). -/

namespace Sys2Proof

/-- The word of a command in numbers (30_encoding.md R47): opcode and fields at their places. -/
theorem toNat_encode (i : Instr) : (encode i).toNat =
    i.opc.toNat + 16 * i.rd.val + 256 * i.ra.val + 4096 * i.rb.val + 65536 * i.rp.val := by
  rw [encode_eq_encodeR4]
  exact toNat_encodeR4 ..

/-- A word that decodes is the sum of the fields that the decoder reads, since it has no bit above them. -/
theorem encode_of_decode {c : BitVec 64} {i : Instr} (h : decode c = .ok i) : encode i = c := by
  have hlegal : WellFormed.command c = true := (decode_ok_iff c).1 ⟨i, h⟩
  obtain ⟨hop, hrsv⟩ := Bool.and_eq_true_iff.1 hlegal
  obtain ⟨j, hj, hopc, hrd, hra, hrb, hrp⟩ := decode_legal c hop hrsv
  obtain rfl : j = i := Except.ok.inj (hj.symm.trans h)
  have hreserved := (reservedOk_iff c).1 hrsv
  apply BitVec.eq_of_toNat_eq
  rw [toNat_encode]
  omega

/-- Settles O1: `decode_encode` for commands, `encode_of_decode` for words. -/
theorem decodeAndEncodeAreInverse : Obligations.DecodeAndEncodeAreInverse :=
  ⟨decode_encode, fun _ _ => encode_of_decode⟩

/-- Settles O2: `toNat_encode`. -/
theorem commandWordIsTheSumOfItsFields : Obligations.CommandWordIsTheSumOfItsFields := toNat_encode

/-- Settles O4: the three command words are encodings, which `decode_encode` reads back; the others fail the check
that the table names. -/
theorem wordsOfTheSpecDecode : Obligations.WordsOfTheSpecDecode :=
  ⟨decode_encode (.addmod 4 2 3 1), decode_encode (.submod 0 1 2 3), decode_encode (.mulmod 15 14 13 12),
    decode_illegalOpcode _ (by decide), decode_illegalOpcode _ (by decide),
    decode_reservedBits _ (by decide) (by decide), decode_reservedBits _ (by decide) (by decide),
    decode_illegalOpcode _ (by decide)⟩

end Sys2Proof
end

section
/-! The text of commands, and the lines of the syntax with their accesses (30_encoding.md R56). -/

namespace Sys2Proof

namespace Machine

set_option exponentiation.threshold 400

/-! ## Words of text -/

/-- A character that the reader neither cuts at nor changes. -/
def isPlain (c : Char) : Bool := !isBlank c && c != ',' && c != ';' && c.toLower == c

/-- A word of a line in lower case. -/
def IsWord (cs : List Char) : Prop := cs ≠ [] ∧ cs.all isPlain = true

theorem isPlain_iff (c : Char) : isPlain c = true ↔ isBlank c = false ∧ c ≠ ',' ∧ c ≠ ';' ∧ c.toLower = c := by
  simp [isPlain, and_assoc]

theorem isWord_mnemonicText (i : Instr) : IsWord (mnemonicText i) := by
  cases i <;> exact ⟨nofun, rfl⟩

theorem isWord_regText (k : RegIdx) : IsWord (regText k) :=
  ⟨nofun, (by decide : ∀ k, (regText k).all isPlain = true) k⟩

theorem readReg_regText : ∀ k, readReg (regText k) = some k := by
  decide

namespace IsWord

variable {w : List Char} (h : IsWord w)

include h

theorem plain {c : Char} (hc : c ∈ w) : isBlank c = false ∧ c ≠ ',' ∧ c ≠ ';' ∧ c.toLower = c :=
  (isPlain_iff c).1 (List.all_eq_true.1 h.2 c hc)

theorem reverse : IsWord w.reverse := by
  simpa [IsWord] using h

/-- The white space before a word ends where the word begins. -/
theorem dropWhile_append (cs : List Char) : (w ++ cs).dropWhile isBlank = w ++ cs := by
  obtain ⟨c, rest, rfl⟩ := List.exists_cons_of_ne_nil h.1
  exact List.dropWhile_cons_of_neg (by simp [(h.plain List.mem_cons_self).1])

/-- A text that begins and ends with a word has no white space at its ends. -/
theorem trimText_append {v cs ds : List Char} (hv : IsWord v) (heq : w ++ cs = ds ++ v) :
    trimText (w ++ cs) = w ++ cs := by
  rw [trimText, h.dropWhile_append, heq, List.reverse_append, hv.reverse.dropWhile_append, ← List.reverse_append,
    List.reverse_reverse]

theorem trimText_eq : trimText w = w := by
  simpa using h.trimText_append (cs := []) (ds := []) h (by simp)

/-- A blank ends the mnemonic. -/
theorem takeWhile_append_blank (cs : List Char) : (w ++ ' ' :: cs).takeWhile (fun c => !isBlank c) = w := by
  rw [List.takeWhile_append_of_pos (fun c hc => by simp [(h.plain hc).1]),
    List.takeWhile_cons_of_neg (by decide), List.append_nil]

theorem dropWhile_append_blank (cs : List Char) :
    (w ++ ' ' :: cs).dropWhile (fun c => !isBlank c) = ' ' :: cs := by
  rw [List.dropWhile_append_of_pos (fun c hc => by simp [(h.plain hc).1]), List.dropWhile_cons_of_neg (by decide)]

end IsWord

theorem trimText_blank_cons (cs : List Char) : trimText (' ' :: cs) = trimText cs := by
  rw [trimText, List.dropWhile_cons_of_pos rfl, trimText]

theorem splitCommas_of_no_comma {w : List Char} (h : ∀ c ∈ w, c ≠ ',') : splitCommas w = [w] := by
  induction w with
  | nil => rfl
  | cons c w ih =>
    obtain ⟨hc, hw⟩ := List.forall_mem_cons.1 h
    rw [splitCommas, if_neg hc, ih hw]

/-- A comma ends the first operand. -/
theorem splitCommas_append_comma {w : List Char} (h : ∀ c ∈ w, c ≠ ',') (cs : List Char) :
    splitCommas (w ++ ',' :: cs) = w :: splitCommas cs := by
  induction w with
  | nil => rfl
  | cons c w ih =>
    obtain ⟨hc, hw⟩ := List.forall_mem_cons.1 h
    rw [List.cons_append, splitCommas, if_neg hc, ih hw]

/-! ## Commands as text -/

/-- The operands of a command as `commandText` writes them. -/
def operandsText (i : Instr) : List Char :=
  regText i.rd ++ ',' :: ' ' :: (regText i.ra ++ ',' :: ' ' :: (regText i.rb ++ ',' :: ' ' :: regText i.rp))

theorem commandText_eq (i : Instr) : commandText i = mnemonicText i ++ ' ' :: operandsText i := by
  simp [commandText, operandsText]

/-- The reader keeps a line in lower case without a comment. -/
theorem map_toLower_takeWhile {cs : List Char} (h : ∀ c ∈ cs, c ≠ ';' ∧ c.toLower = c) :
    (cs.takeWhile (· ≠ ';')).map Char.toLower = cs := by
  rw [List.takeWhile_eq_self_iff.2 fun c hc => by simp [(h c hc).1]]
  exact (List.map_congr_left fun c hc => (h c hc).2).trans (List.map_id' cs)

theorem commandText_kept (i : Instr) : ∀ c ∈ commandText i, c ≠ ';' ∧ c.toLower = c := by
  have hword {w : List Char} (hw : IsWord w) : ∀ c ∈ w, c ≠ ';' ∧ c.toLower = c := fun c hc => (hw.plain hc).2.2
  have hreg (k : RegIdx) := hword (isWord_regText k)
  have hcomma : ',' ≠ ';' ∧ ','.toLower = ',' := by decide
  have hblank : ' ' ≠ ';' ∧ ' '.toLower = ' ' := by decide
  simp only [commandText_eq, operandsText, List.forall_mem_append, List.forall_mem_cons]
  exact ⟨hword (isWord_mnemonicText i), hblank, hreg _, hcomma, hblank, hreg _, hcomma, hblank, hreg _, hcomma,
    hblank, hreg _⟩

theorem trimText_commandText (i : Instr) : trimText (commandText i) = commandText i := by
  have hlast : mnemonicText i ++ ' ' :: operandsText i = (mnemonicText i ++ ' ' :: regText i.rd ++ [',', ' '] ++
      regText i.ra ++ [',', ' '] ++ regText i.rb ++ [',', ' ']) ++ regText i.rp := by
    simp [operandsText]
  rw [commandText_eq]
  exact (isWord_mnemonicText i).trimText_append (isWord_regText i.rp) hlast

theorem trimText_operandsText (i : Instr) : trimText (operandsText i) = operandsText i := by
  have hlast : operandsText i = (regText i.rd ++ [',', ' '] ++ regText i.ra ++ [',', ' '] ++ regText i.rb ++
      [',', ' ']) ++ regText i.rp := by
    simp [operandsText]
  exact (isWord_regText i.rd).trimText_append (isWord_regText i.rp) hlast

/-- The operands are cut at the commas, and each is a register's name after one blank at most. -/
theorem splitCommas_operandsText (i : Instr) : (splitCommas (operandsText i)).map trimText =
    [regText i.rd, regText i.ra, regText i.rb, regText i.rp] := by
  have hcomma (k : RegIdx) : ∀ c ∈ regText k, c ≠ ',' := fun c hc => ((isWord_regText k).plain hc).2.1
  have hblank (k : RegIdx) : ∀ c ∈ ' ' :: regText k, c ≠ ',' := List.forall_mem_cons.2 ⟨by decide, hcomma k⟩
  have htrim (k : RegIdx) : trimText (regText k) = regText k := (isWord_regText k).trimText_eq
  rw [operandsText, splitCommas_append_comma (hcomma _), ← List.cons_append, splitCommas_append_comma (hblank _),
    ← List.cons_append, splitCommas_append_comma (hblank _), splitCommas_of_no_comma (hblank _)]
  simp only [List.map_cons, List.map_nil, trimText_blank_cons, htrim]

theorem operandsText_ne_nil (i : Instr) : operandsText i ≠ [] := by
  simp [operandsText]

theorem readRegs4_regText (mk : RegIdx → RegIdx → RegIdx → RegIdx → Instr) (rd ra rb rp : RegIdx) :
    readRegs4 mk [regText rd, regText ra, regText rb, regText rp] = some (.command (mk rd ra rb rp)) := by
  simp [readRegs4, readReg_regText]

theorem readLine_mnemonicText (i : Instr) :
    readLine (mnemonicText i) [regText i.rd, regText i.ra, regText i.rb, regText i.rp] = some (.command i) := by
  cases i with
  | addmod rd ra rb rp => exact readRegs4_regText .addmod rd ra rb rp
  | submod rd ra rb rp => exact readRegs4_regText .submod rd ra rb rp
  | mulmod rd ra rb rp => exact readRegs4_regText .mulmod rd ra rb rp

/-- Settles O5: the reader keeps the line, cuts it at its blank and its commas, and reads each name back. -/
theorem commandTextIsReadBack : Obligations.CommandTextIsReadBack := by
  intro i
  have hmnemonic := (isWord_mnemonicText i).takeWhile_append_blank (operandsText i)
  have hrest := (isWord_mnemonicText i).dropWhile_append_blank (operandsText i)
  rw [assemble, map_toLower_takeWhile (commandText_kept i), trimText_commandText, commandText_eq]
  simp only [hmnemonic, hrest, trimText_blank_cons, trimText_operandsText, operandsText_ne_nil, if_false,
    splitCommas_operandsText, readLine_mnemonicText]

/-! ## Lines and accesses -/

/-- The limbs of a value read one after the other denote their weighted sum (30_encoding.md R56). -/
theorem getwResult_ofFn (ld : Fin 6 → Limb) :
    getwResult (List.ofFn ld) = ∑ i, (ld i).toNat * 2 ^ (64 * i.val) := by
  have hlist : List.ofFn ld = [ld 0, ld 1, ld 2, ld 3, ld 4, ld 5] := rfl
  rw [hlist, getwResult, Fin.sum_univ_six]
  simp only [limbsVal, Fin.coe_ofNat_eq_mod, Nat.reduceMod, Nat.reduceMul]
  ring

/-- Settles O39: the lines are read by evaluation, each expansion is `AsmLine.expand` at its form, and the sum is
`getwResult_ofFn`. -/
theorem linesOfTextExpandToAccesses : Obligations.LinesOfTextExpandToAccesses :=
  ⟨by decide, fun _ => rfl, rfl, fun _ => rfl, fun _ _ => rfl, fun _ => rfl, fun _ _ => rfl, fun _ => rfl,
    getwResult_ofFn, fun _ => rfl, rfl, rfl⟩

end Machine

end Sys2Proof
end

section
/-! What ADDMOD, SUBMOD and MULMOD write: their pseudocode in plain numbers for every input (40_add_sub.md R59, R62,
R66; 41_montgomery_mul.md R68), and the corner cases of MULMOD (R68, R75). -/

namespace Sys2Proof

namespace Machine

open Safety

set_option exponentiation.threshold 1000

/-! ## Completion -/

/-- Every command completes, writes its value to its destination, and changes nothing else (10_state.md R25). -/
theorem exec_completes (i : Instr) (s : State) :
    ∃ t, exec i s = .next t ∧ t.readW i.rd = commandValue i s ∧ OnlyWChanges i.rd s t :=
  ⟨_, exec_eq i s, readW_writeW_same .., writeW_onlyWChanges ..⟩

/-- Settles O6: the value is `toNat_addModValue`. -/
theorem addmodCompletesWithItsValue : Obligations.AddmodCompletesWithItsValue := by
  intro rd ra rb rp s
  obtain ⟨t, hexec, hvalue, hframe⟩ := exec_completes (.addmod rd ra rb rp) s
  exact ⟨t, hexec, hvalue, (congrArg BitVec.toNat hvalue).trans (toNat_addModValue ..), hframe⟩

/-- The difference modulo `2^384` as the pseudocode has it, over the integers (40_add_sub.md R62). -/
theorem subModValue_pseudocode (a b p : Word384) : ((subModValue a b p).toNat : Int) =
    if a.toNat < b.toNat then (((a.toNat : Int) - b.toNat) % 2 ^ 384 + p.toNat) % 2 ^ 384
    else ((a.toNat : Int) - b.toNat) % 2 ^ 384 := by
  have ha := a.isLt
  have hb := b.isLt
  rw [toNat_subModValue]
  split <;> omega

/-- Settles O7: the value is `subModValue_pseudocode`. -/
theorem submodCompletesWithItsValue : Obligations.SubmodCompletesWithItsValue := by
  intro rd ra rb rp s
  obtain ⟨t, hexec, hvalue, hframe⟩ := exec_completes (.submod rd ra rb rp) s
  refine ⟨t, hexec, hvalue, ?_, hframe⟩
  exact (congrArg (fun x : Word384 => (x.toNat : Int)) hvalue).trans (subModValue_pseudocode ..)

/-- The elimination of limb `i` as the pseudocode writes it (41_montgomery_mul.md R68). -/
def pseudoEliminate (p inv acc i : Nat) : Nat :=
  acc + (((acc / 2 ^ (64 * i)) % 2 ^ 64) * inv) % 2 ^ 64 * p * 2 ^ (64 * i)

/-- The loop of the pseudocode computes the accumulator. -/
theorem foldl_pseudoEliminate (a b p inv n : Nat) :
    (List.range n).foldl (pseudoEliminate p inv) (a * b) = montAcc a b p inv n := by
  induction n with
  | zero => rfl
  | succ n ih =>
    rw [List.range_succ, List.foldl_append, ih, List.foldl_cons, List.foldl_nil, pseudoEliminate,
      ← Nat.shiftRight_eq_div_pow]
    rfl

/-- MULMOD's value as the pseudocode has it: the loop, the shift, one subtraction, the truncation. -/
theorem mulModValue_pseudocode (a b p : Word384) (inv : Limb) : (mulModValue a b p inv).toNat =
    (let u := (List.range 6).foldl (pseudoEliminate p.toNat inv.toNat) (a.toNat * b.toNat) / 2 ^ 384
     if p.toNat ≤ u then u - p.toNat else u) % 2 ^ 384 := by
  rw [foldl_pseudoEliminate, ← montShifted_eq_div]
  exact BitVec.toNat_ofNat _ _

/-- Settles O8: the value is `mulModValue_pseudocode`. -/
theorem mulmodCompletesWithItsValue : Obligations.MulmodCompletesWithItsValue := by
  intro rd ra rb rp s
  obtain ⟨t, hexec, hvalue, hframe⟩ := exec_completes (.mulmod rd ra rb rp) s
  exact ⟨t, hexec, hvalue, (congrArg BitVec.toNat hvalue).trans (mulModValue_pseudocode ..), hframe⟩

/-! ## ADDMOD and SUBMOD outside the precondition -/

/-- With the modulus 0 the sum is only truncated. -/
theorem toNat_addModValue_modulus_zero (a b : Word384) : (addModValue a b 0).toNat = (a.toNat + b.toNat) % 2 ^ 384 := by
  have hzero : (0 : Word384).toNat = 0 := rfl
  rw [toNat_addModValue, hzero, if_pos (Nat.zero_le _), Nat.sub_zero]

/-- The first example of 40_add_sub.md R66, for every modulus: the sum is `2^384`, less one modulus. -/
theorem toNat_addModValue_allOnes_one {p : Word384} (hp : Modulus p) :
    (addModValue (BitVec.allOnes 384) 1 p).toNat = 2 ^ 384 - p.toNat := by
  have hlt := p.isLt
  have hsum : (BitVec.allOnes 384).toNat + (1 : Word384).toNat = 2 ^ 384 := by decide
  rw [toNat_addModValue, hsum, if_pos hlt.le, Nat.mod_eq_of_lt (Nat.sub_lt (Nat.two_pow_pos _) hp)]

/-- The second example of R66, for every modulus: `0 - (2^384 - 1)` wraps to 1, and the modulus is added back. -/
theorem subModValue_zero_allOnes (p : Word384) : subModValue 0 (BitVec.allOnes 384) p = p + 1 := by
  have hborrow : (0 : Word384).toNat < (BitVec.allOnes 384).toNat := by decide
  have hwrap : (0 : Word384) - BitVec.allOnes 384 = 1 := by decide
  rw [subModValue, decide_eq_true hborrow, hwrap]
  exact BitVec.add_comm 1 p

/-- Settles O12: completion is `exec_completes`, and the examples are instances of the lemmas above. -/
theorem addSubOutsideThePrecondition : Obligations.AddSubOutsideThePrecondition := by
  refine ⟨fun rd ra rb rp s => ?_, ?_, toNat_addModValue_modulus_zero⟩
  · obtain ⟨t, hadd, haddValue, haddFrame⟩ := exec_completes (.addmod rd ra rb rp) s
    obtain ⟨t', hsub, hsubValue, hsubFrame⟩ := exec_completes (.submod rd ra rb rp) s
    exact ⟨t, t', hadd, hsub, haddValue, hsubValue, haddFrame, hsubFrame⟩
  · intro blsP
    refine ⟨toNat_addModValue_allOnes_one (by decide), subModValue_zero_allOnes blsP, ?_⟩
    rw [subModValue_zero_allOnes]
    decide

/-! ## Corner cases of MULMOD -/

/-- A zero product stays zero: every multiplier is 0. -/
theorem montAcc_of_mul_eq_zero {a b : Nat} (h : a * b = 0) (p inv n : Nat) : montAcc a b p inv n = 0 := by
  induction n with
  | zero => exact h
  | succ n ih => simp [montAcc, ih, montEliminate, montMultiplier]

theorem mulModValue_of_mul_eq_zero {a b : Word384} (h : a.toNat * b.toNat = 0) (p : Word384) (inv : Limb) :
    mulModValue a b p inv = 0 := by
  have hu : montShifted a.toNat b.toNat p.toNat inv.toNat = 0 := by
    rw [montShifted_eq_div, montAcc_of_mul_eq_zero h, Nat.zero_div]
  apply BitVec.eq_of_toNat_eq
  rw [toNat_mulModValue, hu, Nat.zero_sub, ite_self]
  rfl

/-- With the modulus 0 nothing is added to the product (41_montgomery_mul.md R75). -/
theorem toNat_mulModValue_modulus_zero (a b : Word384) (inv : Limb) :
    (mulModValue a b 0 inv).toNat = a.toNat * b.toNat / 2 ^ 384 := by
  have hzero : (0 : Word384).toNat = 0 := rfl
  rw [toNat_mulModValue, montShifted_eq_div, montAcc_eq_sum, hzero, Nat.mul_zero, Nat.add_zero,
    if_pos (Nat.zero_le _), Nat.sub_zero]

/-- At `u = p` the one subtraction leaves 0. -/
theorem mulModValue_of_shifted_eq {a b p : Word384} {inv : Limb}
    (hu : montShifted a.toNat b.toNat p.toNat inv.toNat = p.toNat) : mulModValue a b p inv = 0 := by
  apply BitVec.eq_of_toNat_eq
  rw [toNat_mulModValue, hu, if_pos (Nat.le_refl _), Nat.sub_self]
  rfl

/-- The Montgomery form of 1 is neutral (41_montgomery_mul.md R68). -/
theorem mulModValue_radix_mod {b p : Word384} {inv : Limb} (h : MulPre 0 b p inv) :
    mulModValue (BitVec.ofNat 384 (radix % p.toNat)) b p inv = b := by
  obtain ⟨hp, hodd, -, hb, hinv⟩ := h
  have hred : Reduced (BitVec.ofNat 384 (radix % p.toNat)) p := by
    rw [Reduced, toNat_ofNat_mod hp]
    exact Nat.mod_lt _ hp
  refine mulModValue_eq_of_modEq hinv hred b hodd hb ?_
  rw [toNat_ofNat_mod hp, Nat.mul_comm]
  exact ((Nat.mod_modEq _ _).mul_right _).symm

/-- Both 1 and `p - 1`, which is -1 modulo `p`, have the square 1. -/
theorem toNat_sub_one_mul_self_modEq {p : Word384} (hp : Modulus p) :
    (p - 1).toNat * (p - 1).toNat ≡ 1 [MOD p.toNat] := by
  have hone : (1 : Word384) ≤ p := hp
  have hpred : (p - 1).toNat = p.toNat - 1 := BitVec.toNat_sub_of_le hone
  rw [hpred, Nat.modEq_iff_dvd]
  refine ⟨2 - p.toNat, ?_⟩
  push_cast [Nat.cast_sub hp]
  ring

/-- One times one is the inverse of `R` (41_montgomery_mul.md R68). -/
theorem mulModValue_one_one_mul_radix {p : Word384} {inv : Limb} (h : MulPre 1 1 p inv) :
    (mulModValue 1 1 p inv).toNat * radix % p.toNat = 1 := by
  obtain ⟨-, -, hone, -, hinv⟩ := h
  have hmod : (mulModValue 1 1 p inv).toNat * radix ≡ 1 [MOD p.toNat] := mulModValue_mul_radix_modEq hinv 1
  exact Eq.trans hmod (Nat.mod_eq_of_lt hone)

/-- The square of `p - 1` is that of 1 (41_montgomery_mul.md R68). -/
theorem mulModValue_sub_one_sub_one {p : Word384} {inv : Limb} (h : MulPre 1 1 p inv) :
    mulModValue (p - 1) (p - 1) p inv = mulModValue 1 1 p inv := by
  obtain ⟨hp, hodd, hone, -, hinv⟩ := h
  have hle : (1 : Word384) ≤ p := hp
  have hred : Reduced (p - 1) p := by
    rw [Reduced, BitVec.toNat_sub_of_le hle]
    exact Nat.sub_lt hp Nat.one_pos
  exact mulModValue_eq_of_modEq hinv hred _ hodd (mulModValue_reduced hinv hone 1)
    ((mulModValue_mul_radix_modEq hinv 1).trans (toNat_sub_one_mul_self_modEq hp).symm)

/-- All ones squared modulo 1: the one subtraction leaves a result far above the modulus (41_montgomery_mul.md
R75). -/
theorem mulModValue_unreduced : ∃ (a b p : Word384) (inv : Limb),
    Modulus p ∧ InverseOk inv p ∧ p.toNat ≤ (mulModValue a b p inv).toNat :=
  ⟨BitVec.allOnes 384, BitVec.allOnes 384, 1, BitVec.allOnes 64, by decide⟩

/-- Settles O17: one lemma for each corner case; that the subtraction needs no truncation is `toNat_mulModValue`. -/
theorem mulmodCornerValues : Obligations.MulmodCornerValues :=
  ⟨fun _ p inv => ⟨mulModValue_of_mul_eq_zero (Nat.zero_mul _) p inv,
      mulModValue_of_mul_eq_zero (Nat.mul_zero _) p inv⟩,
    toNat_mulModValue_modulus_zero,
    fun a b p inv => ⟨mulModValue_of_shifted_eq, toNat_mulModValue a b p inv⟩,
    fun _ _ _ => mulModValue_radix_mod,
    fun _ _ h => ⟨mulModValue_one_one_mul_radix h, mulModValue_sub_one_sub_one h⟩,
    mulModValue_unreduced⟩

end Machine

end Sys2Proof
end

section
/-! The map of the window and its bytes (20_memory.md R29, R30, R37), and what can change INV and a W register
(10_state.md R16, R25; 70_reset_and_hazards.md R106). -/

namespace Sys2Proof

namespace Machine

open Safety

/-! ## The map -/

theorem base_mod_windowSize : Config.base % 0x800 = 0 := Nat.mul_mod_right _ _

theorem windowOffset_eq_some_iff (addr off : Nat) :
    Config.windowOffset addr = some off ↔ addr = Config.base + off ∧ off < 0x800 := by
  have hsize : Config.windowSize = 0x800 := rfl
  rw [Config.windowOffset, hsize]
  split
  · rw [Option.some_inj]; omega
  · simp only [reduceCtorEq, false_iff]; omega

/-- Only its own offset, among the aligned ones, names a limb (20_memory.md R29). -/
theorem eq_limbOffset_of_targetOf {off : Nat} {k : RegIdx} {j : LimbIdx} (ha : off % 8 = 0)
    (h : targetOf off = .limb k j) : off = limbOffset k j := by
  obtain ⟨hoff, -, -⟩ := offset_of_limb h
  omega

/-- Settles O37: a limb's offset is found again by `targetOf_limbOffset`, and each target has one offset. -/
theorem everyLimbHasItsOwnOffset : Obligations.EveryLimbHasItsOwnOffset :=
  ⟨fun k j => ⟨limbOffset_eq k j, limbOffset_aligned k j, limbOffset_lt_window k j, targetOf_limbOffset k j⟩,
    fun _ _ _ => eq_limbOffset_of_targetOf,
    fun _ => ⟨⟨offset_of_cmd, fun h => h ▸ targetOf_cmd⟩, ⟨offset_of_status, fun h => h ▸ targetOf_status⟩,
      ⟨offset_of_inv, fun h => h ▸ targetOf_inv⟩⟩,
    ⟨base_mod_windowSize, fun _ h => (windowOffset_eq_some_iff _ _).2 ⟨rfl, h⟩⟩,
    fun addr off => (windowOffset_eq_some_iff addr off).1⟩

/-! ## Bytes -/

/-- Byte `j` of the aligned word at `off` (20_memory.md R30). -/
theorem windowByte_add (s : State) {off j : Nat} (ha : off % 8 = 0) (hj : j < 8) :
    s.windowByte (off + j) = (s.readTarget (targetOf off)).extractLsb' (8 * j) 8 := by
  have hmod : (off + j) % 8 = j := by omega
  rw [State.windowByte, hmod, Nat.add_sub_cancel]

/-- Byte `j` of a limb is a byte of the value, eight bytes per limb up. -/
theorem limb_byte (x : Word384) (i : Nat) {j : Nat} (hj : j < 8) :
    (limb x i).extractLsb' (8 * j) 8 = x.extractLsb' (8 * (8 * i + j)) 8 := by
  apply BitVec.eq_of_getLsbD_eq
  intro n hn
  have hbit : 64 * i + (8 * j + n) = 8 * (8 * i + j) + n := by omega
  simp only [BitVec.getLsbD_extractLsb', hn, decide_true, Bool.true_and]
  rw [getLsbD_limb _ _ _ (by omega), hbit]

/-- The bytes of a register's slot, least significant first (20_memory.md R30). -/
theorem windowByte_slotOffset_add (s : State) (k : RegIdx) {n : Nat} (hn : n < 48) :
    s.windowByte (slotOffset k + n) = (s.readW k).extractLsb' (8 * n) 8 := by
  obtain ⟨i, j, hj, rfl⟩ : ∃ (i : LimbIdx) (j : Nat), j < 8 ∧ n = 8 * i.val + j :=
    ⟨⟨n / 8, by omega⟩, n % 8, by omega, (Nat.div_add_mod n 8).symm⟩
  rw [← Nat.add_assoc, ← limbOffset, windowByte_add s (limbOffset_aligned k i) hj, targetOf_limbOffset,
    State.readTarget, limb_byte _ _ hj]

/-- A read that is performed keeps the access rule (20_memory.md R33). -/
theorem memRead_eq_ok {s : State} {off n : Nat} {v : Limb} (h : s.memRead off n = .ok v) :
    n = 8 ∧ off % 8 = 0 ∧ off < 0x800 ∧ v = s.readTarget (targetOf off) := by
  by_cases hbad : n ≠ 8 ∨ off % 8 ≠ 0 ∨ 0x800 ≤ off
  · rw [memRead_bad hbad] at h; cases h
  · obtain ⟨rfl, ha, hw⟩ : n = 8 ∧ off % 8 = 0 ∧ off < 0x800 := by omega
    rw [memRead_aligned ha hw] at h
    exact ⟨rfl, ha, hw, (Except.ok.inj h).symm⟩

/-- Settles O36: `windowByte_slotOffset_add` for a slot, `windowByte_add` for a word. -/
theorem windowIsLittleEndian : Obligations.WindowIsLittleEndian := by
  refine ⟨fun s k n => windowByte_slotOffset_add s k, fun s off j v hj hread => ?_⟩
  obtain ⟨-, ha, -, rfl⟩ := memRead_eq_ok hread
  exact windowByte_add s ha hj

/-- A write to a W register shows at no target but its own limbs. -/
theorem readTarget_writeW_other (s : State) {k : RegIdx} (v : Word384) {tgt : Target}
    (h : ∀ j, tgt ≠ .limb k j) : (s.writeW k v).readTarget tgt = s.readTarget tgt := by
  cases tgt with
  | limb k' j =>
    have hne : k' ≠ k := fun heq => h j (by rw [heq])
    simp only [State.readTarget, readW_writeW_other _ _ _ hne]
  | cmd => rfl
  | status => rfl
  | inv => rfl
  | reserved => rfl

/-- Settles O23: a byte that shows a limb of the destination lies in its slot. -/
theorem commandLeavesTheOtherWindowBytes : Obligations.CommandLeavesTheOtherWindowBytes := by
  intro i s t hexec n hn
  rw [exec_eq] at hexec
  obtain rfl := Host.Outcome.next.inj hexec
  have hother : ∀ j, targetOf (n - n % 8) ≠ .limb i.rd j := by
    intro j htgt
    have hoff := eq_limbOffset_of_targetOf (by omega) htgt
    have hj := j.isLt
    rw [limbOffset] at hoff
    omega
  rw [State.windowByte, State.windowByte, readTarget_writeW_other s _ hother]

/-! ## INV -/

/-- Of all writes only one to INV changes it, and stores its data (10_state.md R16). -/
theorem written_inv_cases (tgt : Target) (v : Limb) (s : State) :
    (written tgt v s).inv = s.inv ∨ (tgt = .inv ∧ (written tgt v s).inv = v) := by
  cases tgt with
  | cmd => rw [written]; split <;> simp
  | status => exact .inl (writeStatus_inv s v)
  | inv => exact .inr ⟨rfl, rfl⟩
  | limb k i => exact .inl rfl
  | reserved => exact .inl rfl

/-- A step that changes INV serves a write to it or a reset. -/
theorem step_inv_ne {s t : State} (hs : step s = .next t) (h : t.inv ≠ s.inv) :
    (∃ v rest, s.inputs = .access (.write 0x010 8 0xFF v) :: rest ∧ t.inv = v) ∨
    (∃ held rest, s.inputs = .reset held :: rest ∧ t.inv = 0) := by
  obtain ⟨-, rfl⟩ | ⟨held, rest, hin, rfl⟩ | ⟨a, rest, -, -, rfl⟩ | ⟨off, rest, -, -, -, rfl⟩ |
    ⟨off, v, rest, hin, -, -, rfl⟩ := step_cases hs
  · exact absurd rfl h
  · exact .inr ⟨held, rest, hin, rfl⟩
  · exact absurd rfl h
  · exact absurd rfl h
  · obtain hsame | ⟨htgt, hv⟩ := written_inv_cases (targetOf off) v (s.taken rest)
    · exact absurd hsame h
    · obtain rfl := offset_of_inv htgt
      exact .inl ⟨v, rest, hin, hv⟩

/-- A command whose value does not depend on INV runs the same whatever INV holds. -/
theorem exec_inv_irrelevant {i : Instr} {s t : State} {x : Limb}
    (hvalue : commandValue i { s with inv := x } = commandValue i s) (h : exec i s = .next t) :
    exec i { s with inv := x } = .next { t with inv := x } := by
  rw [exec_eq] at h
  obtain rfl := Host.Outcome.next.inj h
  rw [exec_eq, hvalue]
  rfl

/-- Settles O24: `step_inv_ne` for the step; the values of ADDMOD and SUBMOD are of the W registers alone. -/
theorem onlyHostWritesAndResetChangeInv : Obligations.OnlyHostWritesAndResetChangeInv :=
  ⟨fun _ _ => step_inv_ne, fun _ _ _ _ _ _ _ => ⟨exec_inv_irrelevant rfl, exec_inv_irrelevant rfl⟩⟩

/-! ## W registers -/

/-- Of all writes only a command word with destination `k` and one to a limb of `W[k]` change it (10_state.md R25,
R15). -/
theorem written_readW_ne {tgt : Target} {v : Limb} {s : State} {k : RegIdx}
    (h : (written tgt v s).readW k ≠ s.readW k) :
    (tgt = .cmd ∧ ∃ i, decode v = .ok i ∧ i.rd = k) ∨ (∃ j, tgt = .limb k j) := by
  cases tgt with
  | cmd =>
    rw [written] at h
    cases hd : decode v with
    | ok i =>
      rw [hd] at h
      by_cases hk : i.rd = k
      · exact .inl ⟨rfl, i, rfl, hk⟩
      · exact absurd (readW_writeW_other _ _ _ (Ne.symm hk)) h
    | error e => rw [hd] at h; exact absurd (commandError_readW ..) h
  | status => exact absurd (writeStatus_readW ..) h
  | inv => exact absurd rfl h
  | limb k' j =>
    by_cases hk : k' = k
    · exact .inr ⟨j, by rw [hk]⟩
    · exact absurd (readW_writeW_other _ _ _ (Ne.symm hk)) h
  | reserved => exact absurd rfl h

/-- Settles O25: of the cases of a step only a reset and the writes of `written_readW_ne` change a W register. -/
theorem onlyItsWritersChangeAWRegister : Obligations.OnlyItsWritersChangeAWRegister := by
  intro s t k hs h
  obtain ⟨-, rfl⟩ | ⟨held, rest, hin, -⟩ | ⟨a, rest, -, -, rfl⟩ | ⟨off, rest, -, -, -, rfl⟩ |
    ⟨off, v, rest, hin, ha, -, rfl⟩ := step_cases hs
  · exact absurd rfl h
  · exact .inr (.inr ⟨held, rest, hin⟩)
  · exact absurd rfl h
  · exact absurd rfl h
  · have hw : (written (targetOf off) v (s.taken rest)).readW k ≠ (s.taken rest).readW k := h
    obtain ⟨htgt, i, hd, hk⟩ | ⟨j, htgt⟩ := written_readW_ne hw
    · obtain rfl := offset_of_cmd htgt
      exact .inl ⟨v, i, rest, hin, hd, hk⟩
    · obtain rfl := eq_limbOffset_of_targetOf ha htgt
      exact .inr (.inl ⟨j, v, rest, hin⟩)

end Machine

end Sys2Proof
end

section
/-! Progress of the port (20_memory.md R39), reset (10_state.md R24; 70_reset_and_hazards.md R93 to R95), and the view of
a host that stops on bus errors (93_implementation_defined.md U10). -/

namespace Sys2Proof

namespace Machine

open Safety

/-! ## Progress -/

/-- A served access has one answer. -/
theorem served_answer (a : Access) (s : State) : ∃ r, (served a s).responses = s.responses ++ [r] := by
  obtain ⟨-, heq⟩ | ⟨-, v, heq⟩ | ⟨-, tgt, v, heq⟩ := served_cases a s
  · exact ⟨.busError, by rw [heq, respond_responses]⟩
  · exact ⟨.data v, by rw [heq, respond_responses]⟩
  · exact ⟨.done, by rw [heq, respond_responses, written_responses]⟩

/-- A step takes the oldest event and gives the answers owed for it (20_memory.md R39). -/
theorem step_serves {s : State} {e : PortEvent} {rest : List PortEvent} (h : s.inputs = e :: rest) :
    ∃ t rs, step s = .next t ∧ t.inputs = rest ∧ t.responses = s.responses ++ rs ∧ rs.length = answersOwed e := by
  cases e with
  | access a =>
    obtain ⟨r, hr⟩ := served_answer a (s.taken rest)
    exact ⟨_, [r], step_access h, served_inputs .., hr, rfl⟩
  | reset held => exact ⟨_, _, step_reset h, rfl, rfl, heldResponses_length ..⟩

/-- As many steps as events serve them all. -/
theorem run_serves (es : List PortEvent) {s : State} (h : s.inputs = es) :
    ∃ t rs, Host.Core.run Sys2Proof.core es.length s = .next t ∧ t.inputs = [] ∧
      t.responses = s.responses ++ rs ∧ rs.length = (es.map answersOwed).sum := by
  induction es generalizing s with
  | nil => exact ⟨s, [], rfl, h, (List.append_nil _).symm, rfl⟩
  | cons e es ih =>
    obtain ⟨s', rs, hstep, hin, hrs, hlen⟩ := step_serves h
    obtain ⟨t, rs', hrun, hdone, hrs', hlen'⟩ := ih hin
    refine ⟨t, rs ++ rs', (run_succ hstep es.length).trans hrun, hdone, ?_, ?_⟩
    · rw [hrs', hrs, List.append_assoc]
    · rw [List.length_append, hlen, hlen', List.map_cons, List.sum_cons]

/-- Settles O43: `step_idle`, `step_serves`, and `run_serves` by induction on the events. -/
theorem everyAccessIsServedInOrder : Obligations.EveryAccessIsServedInOrder := by
  refine ⟨fun s => step_idle, fun s e rest hin => ?_, fun s => run_serves s.inputs rfl⟩
  obtain ⟨t, -, hstep, ht, -, -⟩ := step_serves hin
  exact ⟨t, hstep, ht⟩

/-! ## Reset -/

theorem reset_readW (k : RegIdx) : State.reset.readW k = 0 := by
  simp [State.readW, State.reset]

/-- Every target reads 0 after reset (10_state.md R24). -/
theorem reset_readTarget (tgt : Target) : State.reset.readTarget tgt = 0 := by
  cases tgt with
  | limb k j => rw [State.readTarget, reset_readW]; exact BitVec.extractLsb'_zero
  | cmd => rfl
  | status => rfl
  | inv => rfl
  | reserved => rfl

/-- Settles O40: the reads are `reset_readTarget`. -/
theorem resetValues : Obligations.ResetValues := by
  refine ⟨reset_readW, rfl, rfl, rfl, rfl, fun off ha hw => ?_, statusInv_of_clear rfl rfl⟩
  rw [memRead_aligned ha hw, reset_readTarget]

/-- Settles O41: the step is `step_reset`, and the held accesses are answered by `heldResponses`. -/
theorem resetAbandonsWhatIsHeld : Obligations.ResetAbandonsWhatIsHeld := fun s held _ hin =>
  ⟨_, heldResponses held s.draws, step_reset hin, fun k => takeReset_readW _ k held, rfl, rfl, rfl, rfl, rfl,
    heldResponses_length .., fun _ => heldResponses_mem held s.draws⟩

/-! ## A host that stops on bus errors -/

/-- The block itself never stops. -/
theorem step_completes (s : State) : ∃ t, step s = .next t := by
  cases hin : s.inputs with
  | nil => exact ⟨s, step_idle hin⟩
  | cons e rest =>
    obtain ⟨t, -, hstep, -⟩ := step_serves hin
    exact ⟨t, hstep⟩

theorem strictStep_bad {s : State} {a : Access} {rest : List PortEvent} (h : s.inputs = .access a :: rest)
    (ha : accessOk a = false) : strictStep s = .fault .busError := by
  simp only [strictStep, h, ha, if_true]

theorem strictStep_of_accessOk {s : State} (h : ∀ a rest, s.inputs = .access a :: rest → accessOk a = true) :
    strictStep s = step s := by
  rw [strictStep]
  split
  · next a rest hin => rw [if_neg (by simp [h a rest hin])]
  · rfl

/-- The strict view stops exactly at an access that breaks the access rule, since the block's step never does. -/
theorem strictStep_eq_fault_iff (s : State) : strictStep s = .fault .busError ↔
    ∃ a rest, s.inputs = .access a :: rest ∧ accessOk a = false := by
  constructor
  · intro hfault
    by_contra! hok
    obtain ⟨t, hstep⟩ := step_completes s
    rw [strictStep_of_accessOk fun a rest hin => eq_true_of_ne_false (hok a rest hin), hstep] at hfault
    cases hfault
  · rintro ⟨a, rest, hin, ha⟩
    exact strictStep_bad hin ha

/-- An access breaks the access rule exactly when its answer is the bus error. -/
theorem step_answers_busError_iff {s : State} {a : Access} {rest : List PortEvent}
    (h : s.inputs = .access a :: rest) :
    (∃ t, step s = .next t ∧ t.responses = s.responses ++ [.busError]) ↔ accessOk a = false := by
  constructor
  · rintro ⟨t, hstep, ht⟩
    by_contra hok
    obtain ⟨t', r, hstep', ⟨-, hr, -⟩, hne, -⟩ := step_accessOk h (eq_true_of_ne_false hok)
    obtain rfl := Host.Outcome.next.inj (hstep.symm.trans hstep')
    rw [ht, List.append_cancel_left_eq, List.cons.injEq] at hr
    exact hne hr.1.symm
  · exact fun hbad => ⟨_, step_busError h hbad, rfl⟩

/-- The two kinds of access that break the access rule (20_memory.md R31). -/
theorem exists_bad_access_iff (es : List PortEvent) :
    (∃ a rest, es = .access a :: rest ∧ accessOk a = false) ↔
      (∃ off n rest, es = .access (.read off n) :: rest ∧ (n ≠ 8 ∨ off % 8 ≠ 0 ∨ 0x800 ≤ off)) ∨
      (∃ off n lanes v rest, es = .access (.write off n lanes v) :: rest ∧
        (n ≠ 8 ∨ lanes ≠ 0xFF ∨ off % 8 ≠ 0 ∨ 0x800 ≤ off)) := by
  constructor
  · rintro ⟨a, rest, hin, hbad⟩
    cases a with
    | read off n => exact .inl ⟨off, n, rest, hin, (accessOk_read_eq_false_iff off n).1 hbad⟩
    | write off n lanes v =>
      exact .inr ⟨off, n, lanes, v, rest, hin, (accessOk_write_eq_false_iff off n lanes v).1 hbad⟩
  · rintro (⟨off, n, rest, hin, hbad⟩ | ⟨off, n, lanes, v, rest, hin, hbad⟩)
    · exact ⟨_, rest, hin, (accessOk_read_eq_false_iff off n).2 hbad⟩
    · exact ⟨_, rest, hin, (accessOk_write_eq_false_iff off n lanes v).2 hbad⟩

/-- Settles O44: `strictStep_eq_fault_iff`, with the access rule and with the block's own answer. -/
theorem strictStepStopsExactlyOnBusErrors : Obligations.StrictStepStopsExactlyOnBusErrors := by
  intro s
  rw [strictStep_eq_fault_iff]
  refine ⟨exists_bad_access_iff s.inputs, ?_, fun hok => ?_⟩
  · constructor
    · rintro ⟨a, rest, hin, hbad⟩
      exact ⟨⟨a, rest, hin⟩, (step_answers_busError_iff hin).2 hbad⟩
    · rintro ⟨⟨a, rest, hin⟩, hanswer⟩
      exact ⟨a, rest, hin, (step_answers_busError_iff hin).1 hanswer⟩
  · exact strictStep_of_accessOk fun a rest hin => eq_true_of_ne_false fun hbad => hok (strictStep_bad hin hbad)

end Machine

end Sys2Proof
end

section
/-! Runs of the port: a command served by its step, a command issued again (70_reset_and_hazards.md R106, R107), and a
register written and read limb by limb (30_encoding.md R56). -/

namespace Sys2Proof

namespace Machine

open Safety

/-! ## Commands -/

theorem decode_of_decodeTableWord {w : Nat} {i : Instr} (h : decodeTableWord 64 w = some i) :
    decode (tableWord 64 w) = .ok i := by
  rw [decodeTableWord, if_pos (Nat.le_refl 64)] at h
  cases hd : decode (tableWord 64 w) with
  | ok j => rw [hd] at h; rw [Option.some.inj h]
  | error e => rw [hd] at h; cases h

/-- Settles O26: both are `step_commandExecuted`. -/
theorem stepRunsTheDecodedCommand : Obligations.StepRunsTheDecodedCommand :=
  ⟨fun _ _ _ _ => step_commandExecuted, fun s w _ h =>
    step_commandExecuted (withCommand_inputs s (tableWord 64 w)) (decode_of_decodeTableWord h)⟩

/-- Settles O18: the three steps are `step_encoded_eq`, `step_storeLimb`, `step_encoded_eq`. -/
theorem reissuedCommandReadsTheNewSources : Obligations.ReissuedCommandReadsTheNewSources := by
  intro i s k j v rest hin value
  have hvalue {x : State} (hinv : x.inv = s.inv) : commandValue i x = value x := by
    cases i <;> simp only [commandValue, value, hinv]
  refine ⟨_, _, _, step_encoded_eq hin, step_storeLimb rfl, step_encoded_eq rfl, fun k' => ?_, fun hk => ?_,
    fun k' j' => limb_readW_writeLimb .., fun k' => ?_, rfl, rfl, rfl, rfl, by simp, rfl⟩
  · rw [respond_readW, readW_writeW, hvalue rfl]; rfl
  · rw [← hvalue rfl, respond_readW]
    exact (readW_writeW_other _ _ _ hk.symm).trans (readW_writeW_same ..)
  · rw [respond_readW, readW_writeW, hvalue rfl]; rfl

/-! ## Registers limb by limb -/

/-- Writes of limbs of one register: each is answered, and the limbs written hold their part of the value. -/
theorem run_storeLimbs (k : RegIdx) (x : Word384) (js : List LimbIdx) (n : Nat) {s : State} {rest : List PortEvent}
    (h : s.inputs = js.map (fun j => .access (hostStore (limbOffset k j) (limb x j.val))) ++ rest) :
    ∃ t, Host.Core.run Sys2Proof.core (js.length + n) s = Host.Core.run Sys2Proof.core n t ∧
      OnlyWChanges k { s with inputs := rest, responses := s.responses ++ List.replicate js.length .done } t ∧
      ∀ j : LimbIdx, limb (t.readW k) j.val = if j ∈ js then limb x j.val else limb (s.readW k) j.val := by
  induction js generalizing s with
  | nil =>
    exact ⟨s, by rw [List.length_nil, Nat.zero_add], ⟨fun _ _ => rfl, rfl, rfl, rfl, h, (List.append_nil _).symm, rfl⟩,
      fun j => (if_neg List.not_mem_nil).symm⟩
  | cons i js ih =>
    obtain ⟨t, hrun, ⟨hw, hinv, herr, hcause, hin, hresponses, hdraws⟩, hlimb⟩ :=
      ih (s := ((s.taken _).writeLimb k i (limb x i.val)).respond .done) rfl
    refine ⟨t, ?_, ⟨fun k' hk => (hw k' hk).trans (readW_writeW_other _ _ _ hk), hinv, herr, hcause, hin, ?_, hdraws⟩,
      fun j => ?_⟩
    · rw [List.length_cons, Nat.succ_add]
      exact (run_succ (step_storeLimb h) _).trans hrun
    · rw [hresponses]; simp [List.replicate_succ]
    · rw [hlimb, respond_readW, limb_readW_writeLimb]
      by_cases hj : j = i
      · simp [hj]
      · simp only [hj, List.mem_cons, false_or, and_false, if_false]; rfl

/-- Reads of limbs of one register: each is answered with the limb, and nothing changes. -/
theorem run_loadLimbs (k : RegIdx) (js : List LimbIdx) (n : Nat) {s : State} {rest : List PortEvent}
    (h : s.inputs = js.map (fun j => .access (hostLoad (limbOffset k j))) ++ rest) :
    Host.Core.run Sys2Proof.core (js.length + n) s = Host.Core.run Sys2Proof.core n
      { s with inputs := rest, responses := s.responses ++ js.map fun j => .data (limb (s.readW k) j.val) } := by
  induction js generalizing s with
  | nil =>
    obtain rfl : s.inputs = rest := h
    rw [List.length_nil, Nat.zero_add, List.map_nil, List.append_nil]
  | cons i js ih =>
    rw [List.length_cons, Nat.succ_add, run_succ (step_read h (limbOffset_aligned k i) (limbOffset_lt_window k i)),
      targetOf_limbOffset, ih rfl, respond_responses, List.append_assoc]
    rfl

/-- Settles O38: the six writes are `run_storeLimbs`, after which every limb is the value's, and the six reads are
`run_loadLimbs`. -/
theorem setwThenGetwReturnsTheValue : Obligations.SetwThenGetwReturnsTheValue := by
  intro s k x
  obtain ⟨t, hstores, ⟨hw, hinv, herr, hcause, hin, hresponses, hdraws⟩, hlimb⟩ :=
    run_storeLimbs k x limbOrder 6 (s := s.withAccesses ((AsmLine.setw k x).expand ++ (AsmLine.getw k).expand))
      (rest := limbOrder.map (fun j => .access (hostLoad (limbOffset k j))) ++ s.inputs) rfl
  have hvalue : t.readW k = x := eq_of_limbs_eq fun j =>
    (hlimb j).trans (if_pos ((by decide : ∀ j, j ∈ limbOrder) j))
  refine ⟨_, hstores.trans (run_loadLimbs k limbOrder 0 hin), hvalue, ⟨hw, hinv, herr, hcause, rfl, rfl, hdraws⟩, ?_,
    limbsVal_limbs x⟩
  simp only [hresponses, hvalue]
  rfl

end Machine

end Sys2Proof
end
